-- ==== Sys2Proof/Word.lean ====
section
/-! DEFINITION. The word types of the TBS: what the spec treats as bits. -/

namespace Sys2Proof

/-- One byte: a command, the write data and the read data of the host interface (00_scope.md R4). -/
abbrev Byte := BitVec 8

/-- The 32-bit container of `CNT`, `SNAP` and `RESULT` (10_state.md R21-R23). `RESULT` is 32 bits wide in
every build; `CNT` and `SNAP` are `W` bits wide and stand here zero-extended (log entry 6). -/
abbrev Word := BitVec 32

/-- A byte offset in the 16-byte register window (00_scope.md R4, 20_memory.md R40). -/
abbrev Offset := BitVec 4

/-- A 64-bit formula descriptor `SHM : CORR : COEF` (30_encoding.md R66). -/
abbrev Descriptor := BitVec 64

/-- A 16-bit trace word of a host program (30_encoding.md R75). -/
abbrev TraceWord := BitVec 16

end Sys2Proof
end

