-- ==== Sys2Proof/Syntax.lean ====
section
/-! DEFINITION. The commands of the TBS, one constructor per row of spec/opcode_table.json. -/

namespace Sys2Proof

/-- The six legal commands (30_encoding.md R65). None has an operand (R60). -/
inductive Instr where
  /-- EVAL.RAW, byte 0x00 (41_scaler.md R98). -/
  | evalRaw
  /-- EVAL.MS, byte 0x01 (41_scaler.md R99). -/
  | evalMs
  /-- EVAL.US, byte 0x02 (41_scaler.md R100). -/
  | evalUs
  /-- SNAP.RAW, byte 0x04 (41_scaler.md R101). -/
  | snapRaw
  /-- NOW.MS, byte 0x05 (41_scaler.md R102). -/
  | nowMs
  /-- NOW.US, byte 0x06 (41_scaler.md R103). -/
  | nowUs
  deriving DecidableEq, Repr

/-- The mnemonic of a command (30_encoding.md R72). -/
def Instr.mnemonic : Instr → String
  | .evalRaw => "EVAL.RAW"
  | .evalMs => "EVAL.MS"
  | .evalUs => "EVAL.US"
  | .snapRaw => "SNAP.RAW"
  | .nowMs => "NOW.MS"
  | .nowUs => "NOW.US"

/-- Every command, in the order of the opcode table (30_encoding.md R61: exactly six). -/
def Instr.all : List Instr := [.evalRaw, .evalMs, .evalUs, .snapRaw, .nowMs, .nowUs]

end Sys2Proof
end

