-- ==== Sys2Proof/Decode.lean ====
section
/-! DEFINITION. The decoder of command bytes, total, rejecting by name (30_encoding.md R60-R65), and the
encoder of the same layout `Z[4:0] : S : U[1:0]`. -/

namespace Sys2Proof

/-- Why a command byte is reserved (30_encoding.md R61, R64). A reserved byte is no fault: its effect is
`STATUS.ERR <- 1` (41_scaler.md R104), given by `execCommand` in Machine/Bus.lean. -/
inductive Reserved where
  /-- The field Z is not 0: bytes 0x08 to 0xFF (R60). -/
  | nonzeroZ
  /-- Z is 0 and the field U is 3: bytes 0x03 and 0x07 (R62). -/
  | unitThree
  deriving DecidableEq, Repr

/-- The field Z, bits 7:3 of a command byte (30_encoding.md R60). -/
def cmdZ (b : Byte) : BitVec 5 := b.extractLsb' 3 5

/-- The field S, bit 2 of a command byte: the snapshot select (30_encoding.md R60, R63). -/
def cmdS (b : Byte) : Bool := b.getLsbD 2

/-- The field U, bits 1:0 of a command byte: the unit select (30_encoding.md R60, R62). -/
def cmdU (b : Byte) : BitVec 2 := b.extractLsb' 0 2

/-- The decoder: a byte is one of the six legal commands or reserved (30_encoding.md R61, R65). Z is looked at
first, as in 41_scaler.md R97. No state changes how a byte decodes (R76). -/
def decode (b : Byte) : Except Reserved Instr :=
  if cmdZ b ≠ 0 then .error .nonzeroZ
  else
    match cmdS b, (cmdU b).toNat with
    | false, 0 => .ok .evalRaw
    | false, 1 => .ok .evalMs
    | false, 2 => .ok .evalUs
    | true, 0 => .ok .snapRaw
    | true, 1 => .ok .nowMs
    | true, 2 => .ok .nowUs
    | _, _ => .error .unitThree

/-- The field S of each command (30_encoding.md R65). -/
def Instr.sField : Instr → BitVec 1
  | .evalRaw => 0
  | .evalMs => 0
  | .evalUs => 0
  | .snapRaw => 1
  | .nowMs => 1
  | .nowUs => 1

/-- The field U of each command (30_encoding.md R62, R65). -/
def Instr.uField : Instr → BitVec 2
  | .evalRaw => 0
  | .evalMs => 1
  | .evalUs => 2
  | .snapRaw => 0
  | .nowMs => 1
  | .nowUs => 2

/-- The encoder: `b = Z[4:0] : S : U[1:0]` with Z = 0 (30_encoding.md R60, R65). -/
def encode (i : Instr) : Byte := (0 : BitVec 5) ++ i.sField ++ i.uField

/-- The instruction the decoder reads from a table word: `w`'s low `nbits` bits, every bit above them 0. A
command is one byte (30_encoding.md R60, R76), so a longer word is no command. -/
def decodeTableWord (nbits w : Nat) : Option Instr :=
  if nbits ≤ 8 then
    match decode (BitVec.ofNat 8 (w % 2 ^ nbits)) with
    | .ok i => some i
    | .error _ => none
  else none

end Sys2Proof
end

