-- ==== Sys2Proof/Config.lean ====
section
/-! DEFINITION. The build-time parameters of the TBS (00_scope.md R5-R7) and the values the spec leaves open. -/

namespace Sys2Proof

/-- The values `W` may take (00_scope.md R5): 8, 16, 24 or 32. -/
inductive Width where
  | w8
  | w16
  | w24
  | w32
  deriving DecidableEq, Repr

/-- `W` as a number of bits (00_scope.md R5). -/
def Width.bits : Width → Nat
  | .w8 => 8
  | .w16 => 16
  | .w24 => 24
  | .w32 => 32

/-- The parameters a TBS is built with: `W` (00_scope.md R5), the two formula descriptors (R6) and the host
address of offset 0 of the register window (R7). No step changes them (10_state.md R30). -/
structure Config where
  /-- `W`, the width of `CNT`, of `SNAP` and of every converted result (R5). -/
  width : Width
  /-- `F_MS`, ticks to milliseconds (R6). -/
  fMs : Descriptor
  /-- `F_US`, ticks to microseconds (R6). -/
  fUs : Descriptor
  /-- `BASE` (R7). -/
  base : Nat
  deriving DecidableEq, Repr

/-- The descriptor `F_MS` this hardware is built with. OPEN in the spec (92_eei_decisions.md D3): it has no
value here, so nothing can be proved of it (log entry 4). -/
opaque Config.builtFMs : Descriptor

/-- The descriptor `F_US` this hardware is built with. OPEN in the spec (92_eei_decisions.md D3), no value
here (log entry 4). -/
opaque Config.builtFUs : Descriptor

/-- `BASE / 16`. The platform chooses `BASE` (00_scope.md R7, 92_eei_decisions.md D10), no value here (log
entry 4). -/
opaque Config.builtBaseIndex : Nat

/-- The parameters of this hardware: `W` is 32 (00_scope.md R5); the descriptors and `BASE` are open, and
`BASE` is a multiple of 16 (R7). -/
def Config.built : Config where
  width := .w32
  fMs := Config.builtFMs
  fUs := Config.builtFUs
  base := 16 * Config.builtBaseIndex

/-- The example descriptor `FA_MS` of 41_scaler.md: COEF 2, CORR 0, shifts 5, 6, 10, 13. An example of the
spec's, not a value this hardware fixes. -/
def Config.exampleFMs : Descriptor := 0x0000246000000002

/-- The example descriptor `FA_US` of 41_scaler.md: COEF 2048, no shift, no correction. An example of the
spec's, not a value this hardware fixes. -/
def Config.exampleFUs : Descriptor := 0x0000000000000800

/-- The configuration of the spec's test vectors (95_test_vectors.md) at a width: the example descriptors,
and a window at host address 0. Used by tests and by statements about the spec's own examples only. -/
def Config.exampleAt (w : Width) : Config where
  width := w
  fMs := Config.exampleFMs
  fUs := Config.exampleFUs
  base := 0

end Sys2Proof
end

