-- ==== Sys2Proof/Machine/State.lean ====
section
/-! DEFINITION. The state of the TBS (10_state.md R20), the events its agents deliver, the reasons a step can
stop, and the state after reset. -/

namespace Sys2Proof.Machine

/-- One step of one agent, as the block's interface carries it (00_scope.md R2, R4): the tick source's TICK,
the reset source's RESET, and the host's byte read and byte write at a window offset. -/
inductive Event where
  /-- One event on `tick` (40_tick_counter.md R80). -/
  | tick
  /-- One event on `rst` (70_reset_and_hazards.md R140). -/
  | reset
  /-- One host byte read: `bus_sel` with `bus_we = 0` and `bus_off` (20_memory.md R44). -/
  | read (off : Offset)
  /-- One host byte write: `bus_sel` with `bus_we = 1`, `bus_off` and `bus_wdata` (20_memory.md R45). -/
  | write (off : Offset) (b : Byte)
  deriving DecidableEq, Repr

/-- The machine. `cnt`, `snap`, `result` and `err` are the block's complete state (10_state.md R20). `cfg` holds
the build-time parameters, which no step changes (log entry 3). `pending` and `rdata` are the model's own: the
agents' events still to come, in their total order (20_memory.md R50, log entry 1), and the bytes the host
has been answered (log entry 2). -/
structure State where
  /-- The build-time parameters W, F_MS, F_US, BASE (00_scope.md R5-R7; 10_state.md R30). -/
  cfg : Config
  /-- `CNT`, W bits (10_state.md R21). -/
  cnt : Word
  /-- `SNAP`, W bits (10_state.md R22). -/
  snap : Word
  /-- `RESULT`, 32 bits holding a W-bit value (10_state.md R23). -/
  result : Word
  /-- `STATUS.ERR` (10_state.md R24). -/
  err : Bool
  /-- The events the agents have still to perform, oldest first (00_scope.md R3, 20_memory.md R50). -/
  pending : List Event
  /-- The bytes driven on `bus_rdata` so far, oldest first (00_scope.md R4). -/
  rdata : List Byte
  deriving DecidableEq, Repr

/-- The faults of the machine: none. 60_exceptions.md R120: 'A model of the TBS has no fault outcome for any
step' (log entry 10). -/
inductive Fault where
  deriving DecidableEq, Repr

/-- The refusals of the model. -/
inductive Refusal where
  /-- An instruction with no meaning yet, raised by an arm of `exec`. No arm raises it: every command has its
  meaning. Safe. -/
  | notModelled (mnemonic : String)
  /-- A host access to an address outside the register window, raised by the platform's `deliver`, never by
  `step`: it does not reach the TBS and the spec says nothing of it (20_memory.md R40;
  93_implementation_defined.md I8: refuse). Safe. -/
  | outsideWindow (addr : Nat)
  deriving DecidableEq, Repr

/-- The machine right after reset and at power-up (70_reset_and_hazards.md R140, R141): every register of the
block is 0, `W` is 32 (00_scope.md R5), the other parameters are open (log entry 4). No event is pending and
the host has been answered nothing (log entries 1 and 2). -/
def State.reset : State where
  cfg := Config.built
  cnt := 0
  snap := 0
  result := 0
  err := false
  pending := []
  rdata := []

end Sys2Proof.Machine
end

