-- ==== Sys2Proof/Machine/Flags.lean ====
section
/-! DEFINITION. The one status bit, `STATUS.ERR` (10_state.md R24, R29). There are no arithmetic flags: no
command, wrap, clamp or truncation records anything (R29). -/

namespace Sys2Proof.Machine

/-- What a read of STATUS returns: `zext_8(STATUS.ERR)`; bits 7:1 read as 0 (10_state.md R24). -/
def statusByte (s : State) : Byte := (BitVec.ofBool s.err).setWidth 8

/-- `STATUS.ERR <- 1`, the recording of the one error cause, a reserved command byte (60_exceptions.md R121).
It stands where other machines take an exception: nothing is saved and nothing else changes (R126). -/
def recordError (s : State) : State := { s with err := true }

/-- `STATUS.ERR <- 0`. -/
def clearError (s : State) : State := { s with err := false }

/-- A write of `b` to STATUS: `b[0] = 1` clears ERR, `b[0] = 0` leaves it; the other bits are ignored and no
value can set ERR (20_memory.md R45, 30_encoding.md R71). -/
def writeStatus (b : Byte) (s : State) : State := if b.getLsbD 0 then clearError s else s

end Sys2Proof.Machine
end

