-- ==== Sys2Proof/Machine/Operands.lean ====
section
/-! DEFINITION. The operands of the scaler: the three fields of a formula descriptor (30_encoding.md R66, R67),
and the bytes of a latch as the window shows them (20_memory.md R42). -/

namespace Sys2Proof.Machine

/-- COEF, bits 15:0 of a descriptor, unsigned (30_encoding.md R66, R67). -/
def coefField (F : Descriptor) : BitVec 16 := F.extractLsb' 0 16

/-- CORR, bits 31:16 of a descriptor, two's complement (30_encoding.md R66, R67). -/
def corrField (F : Descriptor) : BitVec 16 := F.extractLsb' 16 16

/-- SHM, bits 63:32 of a descriptor, the shift mask (30_encoding.md R66). -/
def shmField (F : Descriptor) : BitVec 32 := F.extractLsb' 32 32

/-- `coef = zext(F[15:0])`, in range 0..65535 (30_encoding.md R67). -/
def coef (F : Descriptor) : Nat := (coefField F).toNat

/-- `corr = sext_16(F[31:16])`, in range -32768..32767 (30_encoding.md R67). -/
def corr (F : Descriptor) : Int := (corrField F).toInt

/-- The term `v >> k` is present: bit `k` of SHM is set (30_encoding.md R66). -/
def hasShift (F : Descriptor) (k : Nat) : Bool := (shmField F).getLsbD k

/-- The shift amounts of a descriptor, increasing (30_encoding.md R67). -/
def shifts (F : Descriptor) : List Nat := (List.range 32).filter (hasShift F)

/-- Byte `i` of a 32-bit latch, byte 0 the least significant: the byte at offset `o + i` of a latch at offset
`o` (20_memory.md R41, R42). -/
def byteOf (v : Word) (i : Nat) : Byte := v.extractLsb' (8 * i) 8

/-- The 32-bit value of four bytes read at ascending offsets, `B3:B2:B1:B0` (20_memory.md R42). -/
def assembleBytes (b0 b1 b2 b3 : Byte) : Word := b3 ++ b2 ++ b1 ++ b0

end Sys2Proof.Machine
end

