-- ==== Sys2Proof/Machine/Ops.lean ====
section
/-! DEFINITION. The shared operations of the TBS: the scaler `Eval` (41_scaler.md R90-R92) and its 50-bit
accumulator (00_scope.md R9), the counter's TICK (40_tick_counter.md R80), RESET (70_reset_and_hazards.md
R140), the capture and the result latch (41_scaler.md R97), and the register read (20_memory.md R44). The TBS
takes no exception and returns from none (60_exceptions.md R120, R126), so there is no such operation. -/

namespace Sys2Proof.Machine

/-- A natural number modulo `2^W`, in the 32-bit container. -/
def narrow (w : Width) (n : Nat) : Word := BitVec.ofNat 32 (n % 2 ^ w.bits)

/-- The loop of `Eval` over a list of shift amounts: each term present is floored on its own and added to the
exact accumulator (41_scaler.md R90). -/
def addShiftTerms (F : Descriptor) (v : Nat) : List Nat → Int → Int
  | [], acc => acc
  | k :: ks, acc => addShiftTerms F v ks (if hasShift F k then acc + ((v >>> k : Nat) : Int) else acc)

/-- The exact sum of `Eval`: the multiply term, the shift terms for k = 0..31 in increasing order, then the
correction, once (41_scaler.md R90). -/
def evalSum (F : Descriptor) (v : Nat) : Int :=
  addShiftTerms F v (List.range 32) ((coef F * v : Nat) : Int) + corr F

/-- A negative sum is clamped to 0 (41_scaler.md R91). -/
def clampSum (acc : Int) : Nat := if acc < 0 then 0 else acc.toNat

/-- `Eval(F, v)`: the clamped sum modulo `2^W` (41_scaler.md R90-R92). It records nothing (10_state.md R29). -/
def eval (w : Width) (F : Descriptor) (v : Word) : Word := narrow w (clampSum (evalSum F v.toNat))

/-- The loop of `Eval` in the 50-bit two's complement accumulator of 00_scope.md R9. -/
def addShiftTerms50 (F : Descriptor) (v : Word) : List Nat → BitVec 50 → BitVec 50
  | [], acc => acc
  | k :: ks, acc => addShiftTerms50 F v ks (if hasShift F k then acc + (v >>> k).setWidth 50 else acc)

/-- The sum of `Eval` as the 50-bit two's complement accumulator of 00_scope.md R9 holds it. -/
def accumulator50 (F : Descriptor) (v : Word) : BitVec 50 :=
  addShiftTerms50 F v (List.range 32) ((coefField F).setWidth 50 * v.setWidth 50) + (corrField F).signExtend 50

/-- The TICK step: `CNT <- (CNT + 1) mod 2^W`, silently (40_tick_counter.md R80, R82). -/
def tickCounter (s : State) : State := { s with cnt := narrow s.cfg.width (s.cnt.toNat + 1) }

/-- The RESET step: `CNT`, `SNAP`, `RESULT` and `STATUS.ERR` become 0; the parameters are not touched
(70_reset_and_hazards.md R140). -/
def resetBlock (s : State) : State := { s with cnt := 0, snap := 0, result := 0, err := false }

/-- The capture `SNAP <- CNT` of a command with S = 1 (30_encoding.md R63, 41_scaler.md R97). -/
def capture (s : State) : State := { s with snap := s.cnt }

/-- `RESULT <- zext_32(r)` (41_scaler.md R97). -/
def latchResult (r : Word) (s : State) : State := { s with result := r }

/-- The conversion with U = 0: `RESULT <- zext_32(SNAP)` (30_encoding.md R62, 41_scaler.md R97). -/
def convertRaw (s : State) : State := latchResult s.snap s

/-- The conversion by a descriptor, U = 1 or 2: `RESULT <- zext_32(Eval(F, SNAP))` (30_encoding.md R62,
41_scaler.md R97). -/
def convertBy (F : Descriptor) (s : State) : State := latchResult (eval s.cfg.width F s.snap) s

/-- What a read of CFG returns: `zext_8(W/8 - 1)` (10_state.md R25, 30_encoding.md R70). -/
def cfgByte (c : Config) : Byte := BitVec.ofNat 8 (c.width.bits / 8 - 1)

/-- `ReadReg(off)` (20_memory.md R44, R41): CMD reads 0x00, STATUS its ERR bit, CFG its constant, the latches
their bytes, and the reserved offsets 0x3 and 0xC-0xF read 0x00. -/
def readReg (s : State) (off : Offset) : Byte :=
  match off.toNat with
  | 0 => 0
  | 1 => statusByte s
  | 2 => cfgByte s.cfg
  | 4 => byteOf s.result 0
  | 5 => byteOf s.result 1
  | 6 => byteOf s.result 2
  | 7 => byteOf s.result 3
  | 8 => byteOf s.snap 0
  | 9 => byteOf s.snap 1
  | 10 => byteOf s.snap 2
  | 11 => byteOf s.snap 3
  | _ => 0

/-- A host byte read: the byte is driven on `bus_rdata` and no register changes (20_memory.md R44, R46). -/
def driveRead (off : Offset) (s : State) : State := { s with rdata := s.rdata ++ [readReg s off] }

/-- The machine with another list of events to come (log entry 1). -/
def withPending (es : List Event) (s : State) : State := { s with pending := es }

end Sys2Proof.Machine
end

