-- ==== Sys2Proof/Machine/Commands.lean ====
section
/-! DEFINITION. The meanings of the six commands (41_scaler.md R98-R103). Each is one atomic step; a legal
command never changes `STATUS.ERR` and never writes `CNT` (R97). -/

namespace Sys2Proof.Machine

/-- EVAL.RAW: `RESULT <- zext_32(SNAP)` (41_scaler.md R98). -/
def execEvalRaw (s : State) : Host.Outcome State Fault Refusal := .next (convertRaw s)

/-- EVAL.MS: `RESULT <- zext_32(Eval(F_MS, SNAP))` (41_scaler.md R99). -/
def execEvalMs (s : State) : Host.Outcome State Fault Refusal := .next (convertBy s.cfg.fMs s)

/-- EVAL.US: `RESULT <- zext_32(Eval(F_US, SNAP))` (41_scaler.md R100). -/
def execEvalUs (s : State) : Host.Outcome State Fault Refusal := .next (convertBy s.cfg.fUs s)

/-- SNAP.RAW: `SNAP <- CNT; RESULT <- zext_32(SNAP)` (41_scaler.md R101). -/
def execSnapRaw (s : State) : Host.Outcome State Fault Refusal := .next (convertRaw (capture s))

/-- NOW.MS: `SNAP <- CNT; RESULT <- zext_32(Eval(F_MS, SNAP))`, of the new `SNAP` (41_scaler.md R102). -/
def execNowMs (s : State) : Host.Outcome State Fault Refusal := .next (convertBy s.cfg.fMs (capture s))

/-- NOW.US: `SNAP <- CNT; RESULT <- zext_32(Eval(F_US, SNAP))`, of the new `SNAP` (41_scaler.md R103). -/
def execNowUs (s : State) : Host.Outcome State Fault Refusal := .next (convertBy s.cfg.fUs (capture s))

end Sys2Proof.Machine
end

