-- ==== Sys2Proof/Machine/Dispatch.lean ====
section
/-! DEFINITION. The dispatch from a decoded command to its meaning (41_scaler.md R97). -/

namespace Sys2Proof.Machine

/-- What a legal command does (30_encoding.md R65). -/
def exec (i : Instr) (s : State) : Host.Outcome State Fault Refusal :=
  match i with
  | .evalRaw => Sys2Proof.Machine.execEvalRaw s
  | .evalMs => Sys2Proof.Machine.execEvalMs s
  | .evalUs => Sys2Proof.Machine.execEvalUs s
  | .snapRaw => Sys2Proof.Machine.execSnapRaw s
  | .nowMs => Sys2Proof.Machine.execNowMs s
  | .nowUs => Sys2Proof.Machine.execNowUs s

end Sys2Proof.Machine
end

