-- ==== Sys2Proof/Machine/Bus.lean ====
section
/-! DEFINITION. The host's writes (20_memory.md R45, 41_scaler.md R97, R104) and the step of one event. -/

namespace Sys2Proof.Machine

/-- `ExecCommand(b)`: a reserved byte only sets `STATUS.ERR`; a legal one runs its command (41_scaler.md R97,
R104). -/
def execCommand (b : Byte) (s : State) : Host.Outcome State Fault Refusal :=
  match decode b with
  | .error _ => .next (recordError s)
  | .ok i => exec i s

/-- `WriteReg(off, b)`: offset 0x0 executes the command, offset 0x1 may clear ERR, and a write to any other
offset is ignored (20_memory.md R45). -/
def writeReg (off : Offset) (b : Byte) (s : State) : Host.Outcome State Fault Refusal :=
  match off.toNat with
  | 0 => execCommand b s
  | 1 => .next (writeStatus b s)
  | _ => .next s

/-- One step of one agent (00_scope.md R2). -/
def perform (e : Event) (s : State) : Host.Outcome State Fault Refusal :=
  match e with
  | .tick => .next (tickCounter s)
  | .reset => .next (resetBlock s)
  | .read off => .next (driveRead off s)
  | .write off b => writeReg off b s

/-- The next step in the agents' total order (20_memory.md R50): the oldest pending event is taken and
performed. With no event pending nothing happens, since the block has no autonomous step (00_scope.md R2; log
entry 5). -/
def performNext (s : State) : Host.Outcome State Fault Refusal :=
  match s.pending with
  | [] => .next s
  | e :: rest => perform e (withPending rest s)

/-- The event of a host write of a command word to CMD: the word's low `nbits` bits, every bit above them 0
(20_memory.md R45, 30_encoding.md R60). -/
def commandEvent (nbits w : Nat) : Event := .write 0 (BitVec.ofNat 8 (w % 2 ^ nbits))

end Sys2Proof.Machine
end

