-- ==== Sys2Proof/Machine/Step.lean ====
section
/-! DEFINITION. The step of the machine, and how a command is placed where the next step takes it. -/

namespace Sys2Proof.Machine

/-- One step: the next event of the agents' total order is performed (00_scope.md R2, 20_memory.md R50). -/
def step (s : State) : Host.Outcome State Fault Refusal := performNext s

/-- `s` with the host's write of the command word to CMD as the very next event. The TBS fetches nothing: a
command is the data byte of a write to CMD (10_state.md R28, 20_memory.md R54; log entry 7). -/
def State.withFetchWord (s : State) (nbits w : Nat) : State :=
  withPending (commandEvent nbits w :: s.pending) s

end Sys2Proof.Machine
end

