-- ==== Sys2Proof/Machine/Trace.lean ====
section
/-! DEFINITION. Host programs: the statements, pseudo-instructions and trace words of 30_encoding.md R73-R75, and
the events that a period of held reset (70_reset_and_hazards.md R142) and two simultaneous events (R150)
stand for. They are test artefacts and agents' behaviour, not hardware. -/

namespace Sys2Proof.Machine

/-- A statement of a host program (30_encoding.md R73). -/
inductive Stmt where
  /-- `RD <reg>`: one host byte read. -/
  | rd (off : Offset)
  /-- `WR <reg>, <imm8>`: one host byte write. -/
  | wr (off : Offset) (b : Byte)
  /-- `TICK <n>`: n TICK events, each its own step. -/
  | tick (n : Nat)
  /-- `RESET`: one RESET event. -/
  | reset
  deriving DecidableEq, Repr

/-- The statements a trace word can carry: a TICK count is 1 to 4096 (30_encoding.md R75). -/
def Stmt.wf : Stmt → Bool
  | .tick n => decide (1 ≤ n ∧ n ≤ 4096)
  | .rd _ => true
  | .wr _ _ => true
  | .reset => true

/-- The events a statement stands for, in order (30_encoding.md R73). -/
def stmtEvents : Stmt → List Event
  | .rd off => [.read off]
  | .wr off b => [.write off b]
  | .tick n => List.replicate n .tick
  | .reset => [.reset]

/-- The events of a host program: its statements run in the order written (30_encoding.md R73). -/
def programEvents (p : List Stmt) : List Event := p.flatMap stmtEvents

/-- The trace word of a statement (30_encoding.md R75): `K : 00 : OFF : DATA`, where a TICK has `n - 1` in bits
11:0. -/
def encodeTrace : Stmt → TraceWord
  | .rd off => (0 : BitVec 2) ++ (0 : BitVec 2) ++ off ++ (0 : BitVec 8)
  | .wr off b => (1 : BitVec 2) ++ (0 : BitVec 2) ++ off ++ b
  | .tick n => (2 : BitVec 2) ++ (0 : BitVec 2) ++ BitVec.ofNat 12 (n - 1)
  | .reset => (3 : BitVec 2) ++ (0 : BitVec 2) ++ (0 : BitVec 12)

/-- The field K, bits 15:14 of a trace word (30_encoding.md R75). -/
def traceK (w : TraceWord) : BitVec 2 := w.extractLsb' 14 2

/-- The field OFF, bits 11:8 of a trace word (30_encoding.md R75). -/
def traceOff (w : TraceWord) : Offset := w.extractLsb' 8 4

/-- The field DATA, bits 7:0 of a trace word (30_encoding.md R75). -/
def traceData (w : TraceWord) : Byte := w.extractLsb' 0 8

/-- Bits 11:0 of a trace word: `n - 1` of a TICK (30_encoding.md R75). -/
def traceCount (w : TraceWord) : BitVec 12 := w.extractLsb' 0 12

/-- The statement of a trace word; none for a word with a bit set that 30_encoding.md R75 says is 0 (log entry
11). -/
def decodeTrace (w : TraceWord) : Option Stmt :=
  if w.extractLsb' 12 2 ≠ (0 : BitVec 2) then none
  else
    match (traceK w).toNat with
    | 0 => if traceData w = 0 then some (.rd (traceOff w)) else none
    | 1 => some (.wr (traceOff w) (traceData w))
    | 2 => some (.tick ((traceCount w).toNat + 1))
    | _ => if traceCount w = 0 then some .reset else none

/-- The offset of CMD (20_memory.md R41). -/
def offCmd : Offset := 0x0

/-- The offset of STATUS (20_memory.md R41). -/
def offStatus : Offset := 0x1

/-- The offset of CFG (20_memory.md R41). -/
def offCfg : Offset := 0x2

/-- The offset of RESULT0, the lowest byte of RESULT (20_memory.md R41). -/
def offResult : Offset := 0x4

/-- The offset of SNAP0, the lowest byte of SNAP (20_memory.md R41). -/
def offSnap : Offset := 0x8

/-- The four byte reads of a 32-bit latch at ascending offsets (30_encoding.md R74). The value read is
`assembleBytes` of the four answers (20_memory.md R42). -/
def rd32 (off : Offset) : List Stmt := [.rd off, .rd (off + 1), .rd (off + 2), .rd (off + 3)]

/-- The reads of the low `W/8` bytes only, which a host may use in place of RD32 when W < 32 (30_encoding.md
R74; the bytes it skips are 0x00, 20_memory.md R43). -/
def rd32Low (w : Width) (off : Offset) : List Stmt := (rd32 off).take (w.bits / 8)

/-- The pseudo-instructions (30_encoding.md R74). -/
inductive Pseudo where
  /-- A command mnemonic alone. -/
  | command (i : Instr)
  /-- `RD32 RESULT`. -/
  | rd32Result
  /-- `RD32 SNAP`. -/
  | rd32Snap
  /-- `CLRERR`. -/
  | clrErr
  /-- `now_ms`. The host critical section it stands in is the host's discipline (70_reset_and_hazards.md R146):
  no other command of the host between its statements. -/
  | nowMs
  /-- `now_us`, in a host critical section likewise. -/
  | nowUs
  deriving DecidableEq, Repr

/-- The expansion of a pseudo-instruction (30_encoding.md R74). -/
def expandPseudo : Pseudo → List Stmt
  | .command i => [.wr offCmd (encode i)]
  | .rd32Result => rd32 offResult
  | .rd32Snap => rd32 offSnap
  | .clrErr => [.wr offStatus 0x01]
  | .nowMs => .wr offCmd (encode .nowMs) :: rd32 offResult
  | .nowUs => .wr offCmd (encode .nowUs) :: rd32 offResult

/-- A host read, as an event. -/
def isRead : Event → Bool
  | .read _ => true
  | .tick => false
  | .reset => false
  | .write _ _ => false

/-- The events of a period in which `rst` is held asserted (70_reset_and_hazards.md R142): the block is reset
and holds the reset state, ticks are not counted and writes are ignored, and reads are answered from the reset
state (log entry 9). -/
def heldReset (during : List Event) : List Event := .reset :: during.filter isRead

/-- The orders in which the model admits two simultaneous events: both (60_exceptions.md R125,
70_reset_and_hazards.md R150). -/
def simultaneousOrders (a b : Event) : List (List Event) := [[a, b], [b, a]]

end Sys2Proof.Machine
end

