-- ==== Sys2Proof/Machine/Assembler.lean ====
section
/-! DEFINITION. The text of host programs: mnemonics, register names, statements and pseudo-instructions
(30_encoding.md R72-R74). A test artefact of the spec, not hardware. -/

namespace Sys2Proof.Machine

/-- The command a mnemonic names (30_encoding.md R72). -/
def mnemonicInstr? (t : List Char) : Option Instr := Instr.all.find? fun i => i.mnemonic.toList == t

/-- The register names and their offsets (30_encoding.md R73, 20_memory.md R41). -/
def regNames : List (String × Offset) :=
  [("CMD", 0x0), ("STATUS", 0x1), ("CFG", 0x2),
   ("RESULT0", 0x4), ("RESULT1", 0x5), ("RESULT2", 0x6), ("RESULT3", 0x7),
   ("SNAP0", 0x8), ("SNAP1", 0x9), ("SNAP2", 0xA), ("SNAP3", 0xB)]

/-- The value of a hexadecimal digit; a decimal digit is one below 10. -/
def digitValue? (c : Char) : Option Nat :=
  let n := c.toNat
  if 48 ≤ n ∧ n ≤ 57 then some (n - 48)
  else if 65 ≤ n ∧ n ≤ 70 then some (n - 55)
  else if 97 ≤ n ∧ n ≤ 102 then some (n - 87)
  else none

/-- The number written by digits in a radix, most significant first, after the value read so far. -/
def digitsValue? (radix : Nat) : List Char → Nat → Option Nat
  | [], acc => some acc
  | c :: cs, acc =>
    match digitValue? c with
    | some d => if d < radix then digitsValue? radix cs (acc * radix + d) else none
    | none => none

/-- A number: `0x` and hexadecimal digits, or decimal digits (30_encoding.md R73, 00_scope.md R10; log entry
12). -/
def number? (t : List Char) : Option Nat :=
  match t with
  | '0' :: 'x' :: d :: ds => digitsValue? 16 (d :: ds) 0
  | d :: ds => digitsValue? 10 (d :: ds) 0
  | [] => none

/-- `<reg>`: a register name or a bare offset 0x0..0xF (30_encoding.md R73). -/
def register? (t : List Char) : Option Offset :=
  match regNames.find? fun r => r.1.toList == t with
  | some r => some r.2
  | none =>
    match number? t with
    | some n => if n < 16 then some (BitVec.ofNat 4 n) else none
    | none => none

/-- `<imm8>`: a command mnemonic or a number 0x00..0xFF (30_encoding.md R73). -/
def imm8? (t : List Char) : Option Byte :=
  match mnemonicInstr? t with
  | some i => some (encode i)
  | none =>
    match number? t with
    | some n => if n < 256 then some (BitVec.ofNat 8 n) else none
    | none => none

/-- The words of a line: blanks separate them and a comma is a word of its own. The second argument is the word
being read, last character first (log entry 12). -/
def lineWords : List Char → List Char → List (List Char)
  | [], cur => if cur = [] then [] else [cur.reverse]
  | c :: cs, cur =>
    let done := if cur = [] then [] else [cur.reverse]
    if c = ' ' ∨ c = '\t' ∨ c = '\r' then done ++ lineWords cs []
    else if c = ',' then done ++ [[',']] ++ lineWords cs []
    else lineWords cs (c :: cur)

/-- The pseudo-instruction of one or two words (30_encoding.md R74). -/
def pseudo? (ws : List (List Char)) : Option Pseudo :=
  if ws = ["RD32".toList, "RESULT".toList] then some .rd32Result
  else if ws = ["RD32".toList, "SNAP".toList] then some .rd32Snap
  else if ws = ["CLRERR".toList] then some .clrErr
  else if ws = ["now_ms".toList] then some .nowMs
  else if ws = ["now_us".toList] then some .nowUs
  else
    match ws with
    | [t] => (mnemonicInstr? t).map .command
    | _ => none

/-- The statement of the words of a line (30_encoding.md R73). -/
def stmt? (ws : List (List Char)) : Option Stmt :=
  match ws with
  | [t] => if t = "TICK".toList then some (.tick 1) else if t = "RESET".toList then some .reset else none
  | [t, a] =>
    if t = "RD".toList then (register? a).map .rd
    else if t = "TICK".toList then (number? a).map .tick
    else none
  | [t, r, c, x] =>
    if t = "WR".toList ∧ c = [','] then
      match register? r, imm8? x with
      | some off, some b => some (.wr off b)
      | _, _ => none
    else none
  | _ => none

/-- The statements of one line, pseudo-instructions expanded; `;` starts a comment, and a line with no word is
empty (30_encoding.md R73, R74). None for a line that is no statement. -/
def assembleLine (line : List Char) : Option (List Stmt) :=
  let ws := lineWords (line.takeWhile (· ≠ ';')) []
  if ws = [] then some []
  else
    match stmt? ws with
    | some st => some [st]
    | none => (pseudo? ws).map expandPseudo

/-- The statements of lines of text; the second argument is the line being read, last character first. -/
def assembleLines : List Char → List Char → Option (List Stmt)
  | [], cur => assembleLine cur.reverse
  | c :: cs, cur =>
    if c = '\n' then
      match assembleLine cur.reverse, assembleLines cs [] with
      | some p, some q => some (p ++ q)
      | _, _ => none
    else assembleLines cs (c :: cur)

/-- The statements of a host program's text, one statement a line (30_encoding.md R73). -/
def assemble (text : String) : Option (List Stmt) := assembleLines text.toList []

end Sys2Proof.Machine
end

