-- ==== Sys2Proof/Machine/Platform.lean ====
section
/-! DEFINITION. The platform's address decode: how a host access by address reaches the window (00_scope.md R7,
20_memory.md R40). -/

namespace Sys2Proof.Machine

/-- A host access by address, one byte wide, the only width there is (20_memory.md R47; 00_scope.md R12). -/
inductive Access where
  /-- `MemRead(addr, 1)`. -/
  | memRead (addr : Nat)
  /-- `MemWrite(addr, 1, b)`. -/
  | memWrite (addr : Nat) (b : Byte)
  deriving DecidableEq, Repr

/-- The window offset `a - BASE` of a host address in `BASE .. BASE + 15`; no offset for an address outside the
window (20_memory.md R40, 00_scope.md R7). -/
def offsetOf (base addr : Nat) : Option Offset :=
  if base ≤ addr ∧ addr < base + 16 then some (BitVec.ofNat 4 (addr - base)) else none

/-- The platform hands a host access to the block: it becomes the last event of the total order so far. An
access outside the window does not reach the TBS (20_memory.md R40): it is refused
(93_implementation_defined.md I8, log entry 8). -/
def deliver (a : Access) (s : State) : Host.Outcome State Fault Refusal :=
  match a with
  | .memRead addr =>
    match offsetOf s.cfg.base addr with
    | some off => .next (withPending (s.pending ++ [.read off]) s)
    | none => .refused (.outsideWindow addr)
  | .memWrite addr b =>
    match offsetOf s.cfg.base addr with
    | some off => .next (withPending (s.pending ++ [.write off b]) s)
    | none => .refused (.outsideWindow addr)

end Sys2Proof.Machine
end

