-- ==== Sys2Proof/WellFormed.lean ====
section
/-! DEFINITION. What is well formed: a command, and a configuration. (The range of a TICK statement's count,
30_encoding.md R75, is checked by `Stmt.wf` beside the statements, in Machine/Trace.lean.) -/

namespace Sys2Proof

/-- A command is well formed. The six commands have no operand field (30_encoding.md R60, R65), so there is
nothing to check and every one is. -/
def Instr.wf : Instr → Bool
  | .evalRaw => true
  | .evalMs => true
  | .evalUs => true
  | .snapRaw => true
  | .nowMs => true
  | .nowUs => true

/-- A configuration is well formed: `BASE` is a multiple of 16 (00_scope.md R7). `W` is one of its four values
by its type (R5), and every descriptor is valid (30_encoding.md R68). -/
def Config.wf (c : Config) : Bool := c.base % 16 == 0

end Sys2Proof
end

