-- ==== Sys2Proof/Safety.lean ====
section
/-! DEFINITION. The terms the statements use: the invariant of the machine, runs, and classes of events. -/

namespace Sys2Proof.Machine

/-- The invariant: `CNT`, `SNAP` and the value in `RESULT` are W-bit values (10_state.md R21-R23: bits 31:W of
RESULT are always 0), and `BASE` is a multiple of 16 (00_scope.md R7). -/
abbrev State.Inv (s : State) : Prop :=
  s.cnt.toNat < 2 ^ s.cfg.width.bits ∧ s.snap.toNat < 2 ^ s.cfg.width.bits ∧
    s.result.toNat < 2 ^ s.cfg.width.bits ∧ s.cfg.wf = true

/-- `k` steps of the machine, stopping at the first fault or refusal. -/
def steps : Nat → State → Host.Outcome State Fault Refusal
  | 0, s => .next s
  | k + 1, s =>
    match step s with
    | .next s' => steps k s'
    | .fault r => .fault r
    | .refused r => .refused r

/-- A run of `k` steps is safe: it reaches a state, with no fault and no refusal. -/
def SafeRun (k : Nat) (s : State) : Prop := ∃ s', steps k s = .next s'

/-- The block's state is the same in both, that is the whole tuple (CNT, SNAP, RESULT, STATUS.ERR) of
10_state.md R20. -/
abbrev SameBlock (s t : State) : Prop := t.cnt = s.cnt ∧ t.snap = s.snap ∧ t.result = s.result ∧ t.err = s.err

/-- The event is a host write to CMD (20_memory.md R45). -/
def isCommand : Event → Bool
  | .write off _ => off.toNat == 0
  | .tick => false
  | .reset => false
  | .read _ => false

/-- The event is a command that captures: a write to CMD of a legal byte with S = 1, which is 0x04, 0x05 or
0x06 (30_encoding.md R63, R65). -/
def isCapture : Event → Bool
  | .write off b => off.toNat == 0 && (b == 0x04 || b == 0x05 || b == 0x06)
  | .tick => false
  | .reset => false
  | .read _ => false

/-- The event is a host write that clears ERR: to STATUS with bit 0 set (30_encoding.md R71). -/
def isErrClear : Event → Bool
  | .write off b => off.toNat == 1 && b.getLsbD 0
  | .tick => false
  | .reset => false
  | .read _ => false

/-- The event can change neither latch: neither a write to CMD nor a RESET. A host critical section admits no
other between a command and the last byte read of its result (70_reset_and_hazards.md R146). -/
def isQuiet (e : Event) : Bool := !isCommand e && !(e == .reset)

/-- The number of TICK events among events. -/
def tickCount (es : List Event) : Nat := es.count .tick

/-- The number of host reads among events. -/
def readCount (es : List Event) : Nat := es.countP isRead

end Sys2Proof.Machine
end

