-- ==== Sys2Proof/Certificates/Slice0/Obligations.lean ====
section
/-! DEFINITION. The statements for the provers. Each docstring names the rules of spec/ it formalises. -/

open Sys2Proof Sys2Proof.Machine

/-! ## Encodings -/

/-- 30_encoding.md R61: a byte is legal iff `b[7:3] = 0` and `b[1:0] ≠ 3`, and exactly six bytes are. -/
def Obligations.LegalBytesAreTheSix : Prop :=
  ∀ b : Byte,
    ((∃ i, decode b = .ok i) ↔ (b.toNat / 8 = 0 ∧ b.toNat % 4 ≠ 3)) ∧
    ((∃ i, decode b = .ok i) ↔ b ∈ [(0x00 : Byte), 0x01, 0x02, 0x04, 0x05, 0x06])

/-- 30_encoding.md R65, R72: the bytes of the command map decode to their commands (sanity of the decoder on
words written out from the table). -/
def Obligations.TableBytesDecode : Prop :=
  decode 0b00000000 = .ok .evalRaw ∧ decode 0b00000001 = .ok .evalMs ∧ decode 0b00000010 = .ok .evalUs ∧
  decode 0b00000100 = .ok .snapRaw ∧ decode 0b00000101 = .ok .nowMs ∧ decode 0b00000110 = .ok .nowUs ∧
  decode 0b00000011 = .error .unitThree ∧ decode 0b00000111 = .error .unitThree ∧
  decode 0b00001000 = .error .nonzeroZ ∧ decode 0b11111111 = .error .nonzeroZ

/-- 30_encoding.md R60, R65: decode and encode agree on the six commands, both ways. -/
def Obligations.DecodeAndEncodeAgree : Prop := ∀ (b : Byte) (i : Instr), decode b = .ok i ↔ encode i = b

/-- 30_encoding.md R75 (and log entry 11 for the words no statement has): a trace word reads as a statement
exactly when that statement is within the format's range and encodes to the word. -/
def Obligations.TraceDecodeAndEncodeAgree : Prop :=
  ∀ (w : TraceWord) (st : Stmt), decodeTrace w = some st ↔ (st.wf = true ∧ encodeTrace st = w)

/-- 30_encoding.md R66, R67: the operands assembled from a descriptor `SHM : CORR : COEF`; the shift list holds
exactly the set bits of SHM, strictly increasing. -/
def Obligations.DescriptorFieldsAssemble : Prop :=
  ∀ (shm : BitVec 32) (co : BitVec 16) (cf : BitVec 16),
    coef (shm ++ co ++ cf) = cf.toNat ∧
    corr (shm ++ co ++ cf) = (if 2 ^ 15 ≤ co.toNat then (co.toNat : Int) - 2 ^ 16 else (co.toNat : Int)) ∧
    (∀ k, k ∈ shifts (shm ++ co ++ cf) ↔ (k < 32 ∧ shm.toNat.testBit k = true)) ∧
    (shifts (shm ++ co ++ cf)).Pairwise (· < ·)

/-- 30_encoding.md R72: a mnemonic is the unit selected by U, preceded by EVAL for S = 0 or by NOW for S = 1,
but SNAP.RAW for S = 1, U = 0; as an `<imm8>` of R73 it stands for its command's byte. -/
def Obligations.MnemonicsFollowTheFields : Prop :=
  ∀ i : Instr,
    i.mnemonic
      = (if (encode i).toNat / 4 = 0 then "EVAL" else if (encode i).toNat % 4 = 0 then "SNAP" else "NOW")
        ++ (if (encode i).toNat % 4 = 0 then ".RAW" else if (encode i).toNat % 4 = 1 then ".MS" else ".US") ∧
    imm8? i.mnemonic.toList = some (encode i)

/-- 30_encoding.md R73, R74: the events that the pseudo-instructions stand for, and that a TICK statement
does. -/
def Obligations.PseudoInstructionsExpand : Prop :=
  (∀ i : Instr, programEvents (expandPseudo (.command i)) = [.write 0x0 (encode i)]) ∧
  programEvents (expandPseudo .rd32Result) = [.read 0x4, .read 0x5, .read 0x6, .read 0x7] ∧
  programEvents (expandPseudo .rd32Snap) = [.read 0x8, .read 0x9, .read 0xA, .read 0xB] ∧
  programEvents (expandPseudo .clrErr) = [.write 0x1 0x01] ∧
  programEvents (expandPseudo .nowMs) = [.write 0x0 0x05, .read 0x4, .read 0x5, .read 0x6, .read 0x7] ∧
  programEvents (expandPseudo .nowUs) = [.write 0x0 0x06, .read 0x4, .read 0x5, .read 0x6, .read 0x7] ∧
  ∀ n : Nat, programEvents [.tick n] = List.replicate n .tick

/-! ## The step, and what every step keeps -/

/-- 41_scaler.md R97, 20_memory.md R54: when the next event is a write of byte `b` to CMD and `b` decodes to a
command, the step is that command's `exec`, on the state with the event taken. -/
def Obligations.StepRunsTheDecodedCommand : Prop :=
  ∀ (s : State) (b : Byte) (rest : List Event) (i : Instr),
    s.pending = .write 0 b :: rest → decode b = .ok i → step s = exec i (withPending rest s)

/-- 60_exceptions.md R120: every step of every agent completes with a defined next state, so every run of any
length does. -/
def Obligations.EveryRunCompletes : Prop := ∀ (s : State) (k : Nat), SafeRun k s

/-- 00_scope.md R2: the block has no autonomous step. That a step with no event pending leaves the machine as
it is is the model's choice (log entry 5). -/
def Obligations.NoAutonomousStep : Prop := ∀ s : State, s.pending = [] → step s = .next s

/-- 10_state.md R21-R23: the reset state meets the invariant. -/
def Obligations.ResetMeetsTheInvariant : Prop := State.reset.Inv

/-- 10_state.md R21, R22, R23 ('Bits `[31:W]` are always 0'): every step keeps `CNT`, `SNAP` and `RESULT`
within W bits, whatever the widths, the descriptors and the event. -/
def Obligations.EveryStepKeepsTheInvariant : Prop :=
  ∀ s t : State, s.Inv → step s = .next t → t.Inv

/-- 00_scope.md R6, 10_state.md R30: no run changes the build-time parameters. -/
def Obligations.ParametersNeverChange : Prop :=
  ∀ (s t : State) (k : Nat), steps k s = .next t → t.cfg = s.cfg

/-- 40_tick_counter.md R81: a step changes `CNT` only if it is a TICK or a RESET. -/
def Obligations.CounterHasTwoWriters : Prop :=
  ∀ s t : State, step s = .next t → t.cnt ≠ s.cnt →
    ∃ rest, s.pending = .tick :: rest ∨ s.pending = .reset :: rest

/-- 10_state.md R22: a step changes `SNAP` only if it is a command with S = 1, which then holds `CNT`, or a
RESET. -/
def Obligations.SnapshotWriters : Prop :=
  ∀ s t : State, step s = .next t → t.snap ≠ s.snap →
    (∃ b rest, s.pending = .write 0 b :: rest ∧ b ∈ [(0x04 : Byte), 0x05, 0x06] ∧ t.snap = s.cnt) ∨
    (∃ rest, s.pending = .reset :: rest ∧ t.snap = 0)

/-- 10_state.md R23: a step changes `RESULT` only if it is a legal command or a RESET. -/
def Obligations.ResultWriters : Prop :=
  ∀ s t : State, step s = .next t → t.result ≠ s.result →
    (∃ b rest i, s.pending = .write 0 b :: rest ∧ decode b = .ok i) ∨ (∃ rest, s.pending = .reset :: rest)

/-- 60_exceptions.md R121, R123: the only step that sets `STATUS.ERR` is a write to CMD of a reserved byte. -/
def Obligations.OnlyReservedCommandsSetErr : Prop :=
  ∀ s t : State, step s = .next t → s.err = false → t.err = true →
    ∃ b rest, s.pending = .write 0 b :: rest ∧ ¬ (b.toNat / 8 = 0 ∧ b.toNat % 4 ≠ 3)

/-- 60_exceptions.md R122: once set, `STATUS.ERR` stays 1 through any events but a host write with bit 0 set to
STATUS and a RESET, and either of those clears it. -/
def Obligations.ErrIsSticky : Prop :=
  (∀ (s : State) (es rest : List Event), s.pending = es ++ rest → s.err = true →
    (∀ e ∈ es, isErrClear e = false ∧ e ≠ .reset) →
    ∃ t, steps es.length s = .next t ∧ t.err = true ∧ t.pending = rest) ∧
  (∀ (s : State) (e : Event) (rest : List Event), s.pending = e :: rest → isErrClear e = true ∨ e = .reset →
    ∃ t, step s = .next t ∧ t.err = false ∧ t.pending = rest)

/-! ## TICK and RESET -/

/-- 40_tick_counter.md R80: the TICK step, and its corner case at `2^W - 1`. -/
def Obligations.TickStep : Prop :=
  ∀ (s : State) (rest : List Event), s.pending = .tick :: rest →
    step s = .next { s with cnt := BitVec.ofNat 32 ((s.cnt.toNat + 1) % 2 ^ s.cfg.width.bits), pending := rest } ∧
    (s.cnt.toNat = 2 ^ s.cfg.width.bits - 1 →
      step s = .next { s with cnt := 0, pending := rest })

/-- 70_reset_and_hazards.md R140: the RESET step; the parameters and everything outside the block stand. -/
def Obligations.ResetStep : Prop :=
  ∀ (s : State) (rest : List Event), s.pending = .reset :: rest →
    step s = .next { s with cnt := 0, snap := 0, result := 0, err := false, pending := rest }

/-- 70_reset_and_hazards.md R141: at power-up the block's state is what a RESET step leaves, from any state. -/
def Obligations.PowerUpIsTheResetState : Prop :=
  State.reset.cnt = 0 ∧ State.reset.snap = 0 ∧ State.reset.result = 0 ∧ State.reset.err = false ∧
  ∀ (s t : State) (rest : List Event), s.pending = .reset :: rest → step s = .next t → SameBlock State.reset t

/-- 40_tick_counter.md R84: every TICK among any events but RESETs is counted exactly once, whatever else the
host does between them. -/
def Obligations.EveryTickIsCounted : Prop :=
  ∀ (s : State) (es rest : List Event), s.Inv → s.pending = es ++ rest → (∀ e ∈ es, e ≠ .reset) →
    ∃ t, steps es.length s = .next t ∧ t.pending = rest ∧
      t.cnt.toNat = (s.cnt.toNat + tickCount es) % 2 ^ s.cfg.width.bits

/-- 40_tick_counter.md R85: after a RESET followed by n TICK steps, `CNT = n mod 2^W`, from any state. -/
def Obligations.TicksAfterReset : Prop :=
  ∀ (s : State) (n : Nat) (rest : List Event), s.pending = .reset :: (List.replicate n .tick ++ rest) →
    ∃ t, steps (n + 1) s = .next t ∧ t.pending = rest ∧ t.cnt.toNat = n % 2 ^ s.cfg.width.bits

/-- 40_tick_counter.md R86: two captures with d TICKs between them differ by d modulo `2^W`, across any wrap and
whatever else happens between but a RESET; the difference determines d exactly when `d < 2^W`. -/
def Obligations.SnapshotsMeasureTicks : Prop :=
  ∀ (s : State) (e₁ e₂ : Event) (gap rest : List Event),
    s.pending = e₁ :: (gap ++ e₂ :: rest) → isCapture e₁ = true → isCapture e₂ = true →
    (∀ e ∈ gap, e ≠ .reset) →
    ∃ s₁ s₂, steps 1 s = .next s₁ ∧ steps (gap.length + 2) s = .next s₂ ∧
      ((s₂.snap.toNat : Int) - s₁.snap.toNat) % 2 ^ s.cfg.width.bits
        = (tickCount gap : Int) % 2 ^ s.cfg.width.bits ∧
      (((s₂.snap.toNat : Int) - s₁.snap.toNat) % 2 ^ s.cfg.width.bits = tickCount gap ↔
        tickCount gap < 2 ^ s.cfg.width.bits)

/-- 40_tick_counter.md R87: a step that is no RESET does not lower `CNT`, except from `2^W - 1` to 0. -/
def Obligations.CounterOnlyDropsAtTheWrap : Prop :=
  ∀ s t : State, s.Inv → step s = .next t → (∀ rest, s.pending ≠ .reset :: rest) →
    s.cnt.toNat ≤ t.cnt.toNat ∨ (s.cnt.toNat = 2 ^ s.cfg.width.bits - 1 ∧ t.cnt = 0)

/-- 70_reset_and_hazards.md R142: a period of held reset leaves the block as ordering every event of it before
one RESET step does, that is in the reset state, and answers its reads from the reset state (log entry 9). -/
def Obligations.HeldResetLeavesTheResetState : Prop :=
  ∀ (s s' : State) (during rest : List Event),
    s.pending = heldReset during ++ rest → s' = withPending (during ++ .reset :: rest) s →
    ∃ t t', steps (heldReset during).length s = .next t ∧ steps (during.length + 1) s' = .next t' ∧
      SameBlock t t' ∧ SameBlock State.reset t ∧ t.pending = rest ∧ t'.pending = rest ∧
      t.rdata = s.rdata ++ during.filterMap fun e =>
        match e with
        | .read off => some (readReg (resetBlock s) off)
        | _ => none

/-! ## The register window -/

/-- 20_memory.md R44: a host read answers `ReadReg(off)` and changes no state of the block; the value of every
offset; and `MemRead(BASE + off, 1)` is that read. -/
def Obligations.HostRead : Prop :=
  (∀ (s : State) (off : Offset),
    deliver (.memRead (s.cfg.base + off.toNat)) s = .next { s with pending := s.pending ++ [.read off] }) ∧
  (∀ (s : State) (off : Offset) (rest : List Event), s.pending = .read off :: rest →
    step s = .next { s with rdata := s.rdata ++ [readReg s off], pending := rest }) ∧
  ∀ s : State,
    readReg s 0x0 = 0x00 ∧ readReg s 0x1 = (if s.err then 0x01 else 0x00) ∧
    readReg s 0x2 = BitVec.ofNat 8 (s.cfg.width.bits / 8 - 1) ∧
    (∀ i, i < 4 → readReg s (BitVec.ofNat 4 (4 + i)) = s.result.extractLsb' (8 * i) 8) ∧
    (∀ i, i < 4 → readReg s (BitVec.ofNat 4 (8 + i)) = s.snap.extractLsb' (8 * i) 8) ∧
    readReg s 0x3 = 0x00 ∧ readReg s 0xC = 0x00 ∧ readReg s 0xD = 0x00 ∧ readReg s 0xE = 0x00 ∧
    readReg s 0xF = 0x00

/-- 20_memory.md R46: no read has a side effect: any reads in any order are all answered from the same state of
the block, and leave it. -/
def Obligations.ReadsHaveNoSideEffect : Prop :=
  ∀ (s : State) (offs : List Offset) (rest : List Event), s.pending = offs.map .read ++ rest →
    steps offs.length s = .next { s with rdata := s.rdata ++ offs.map (readReg s), pending := rest }

/-- 20_memory.md R45, 30_encoding.md R71: a host write: offset 0x0 executes the command, offset 0x1 clears ERR
if bit 0 is set and else leaves it, every other offset is ignored; and `MemWrite(BASE + off, 1, b)` is that
write. -/
def Obligations.HostWrite : Prop :=
  (∀ (s : State) (off : Offset) (b : Byte),
    deliver (.memWrite (s.cfg.base + off.toNat) b) s
      = .next { s with pending := s.pending ++ [.write off b] }) ∧
  ∀ (s : State) (off : Offset) (b : Byte) (rest : List Event), s.pending = .write off b :: rest →
    (off = 0x0 → step s = execCommand b (withPending rest s)) ∧
    (off = 0x1 → step s = .next { s with err := if b.toNat % 2 = 1 then false else s.err, pending := rest }) ∧
    (off ≠ 0x0 ∧ off ≠ 0x1 → step s = .next { s with pending := rest })

/-- 20_memory.md R42: RESULT and SNAP are little-endian: the four bytes read at ascending offsets assemble to
the latch. -/
def Obligations.LatchesAreLittleEndian : Prop :=
  ∀ s : State,
    assembleBytes (readReg s 0x4) (readReg s 0x5) (readReg s 0x6) (readReg s 0x7) = s.result ∧
    assembleBytes (readReg s 0x8) (readReg s 0x9) (readReg s 0xA) (readReg s 0xB) = s.snap

/-- 20_memory.md R43: the bytes of RESULT and SNAP at or above W read 0x00. -/
def Obligations.BytesAboveTheWidthReadZero : Prop :=
  ∀ (s : State) (i : Nat), s.Inv → i < 4 → s.cfg.width.bits ≤ 8 * i →
    readReg s (BitVec.ofNat 4 (4 + i)) = 0x00 ∧ readReg s (BitVec.ofNat 4 (8 + i)) = 0x00

/-- 30_encoding.md R70: CFG encodes W in bits 1:0 as `W/8 - 1` with bits 7:2 zero, and the host recovers
`W = 8 * (CFG[1:0] + 1)`. -/
def Obligations.CfgGivesTheWidth : Prop :=
  ∀ s : State,
    (readReg s 0x2).toNat % 4 = s.cfg.width.bits / 8 - 1 ∧ (readReg s 0x2).toNat / 4 = 0 ∧
    s.cfg.width.bits = 8 * ((readReg s 0x2).toNat % 4 + 1)

/-- 20_memory.md R40, 00_scope.md R7: a host access to address `a` in `BASE .. BASE + 15` becomes an access at
offset `a - BASE`; one outside the window does not reach the TBS, and the model refuses it
(93_implementation_defined.md I8, log entry 8). -/
def Obligations.WindowDecodesAddresses : Prop :=
  (∀ base addr : Nat, ∀ off : Offset,
    offsetOf base addr = some off ↔ (base ≤ addr ∧ addr ≤ base + 15 ∧ off.toNat = addr - base)) ∧
  ∀ (s : State) (addr : Nat) (b : Byte),
    (∀ off, offsetOf s.cfg.base addr = some off →
      deliver (.memRead addr) s = .next { s with pending := s.pending ++ [.read off] } ∧
      deliver (.memWrite addr b) s = .next { s with pending := s.pending ++ [.write off b] }) ∧
    ((addr < s.cfg.base ∨ s.cfg.base + 15 < addr) →
      deliver (.memRead addr) s = .refused (.outsideWindow addr) ∧
      deliver (.memWrite addr b) s = .refused (.outsideWindow addr))

/-- 40_tick_counter.md R83: the host cannot read `CNT` but by a command with S = 1: two machines that differ in
`CNT` only, run through the same events with no such command among them, answer the host the same bytes and
differ in nothing but `CNT`. -/
def Obligations.CounterIsHiddenWithoutACapture : Prop :=
  ∀ (s : State) (c : Word) (es rest : List Event), s.pending = es ++ rest →
    (∀ e ∈ es, isCapture e = false) →
    ∃ t t', steps es.length s = .next t ∧ steps es.length { s with cnt := c } = .next t' ∧
      t'.rdata = t.rdata ∧ t' = { t with cnt := t'.cnt }

/-- 70_reset_and_hazards.md R145: the host access that follows a write to CMD sees the command's effect. -/
def Obligations.NoResultLatency : Prop :=
  ∀ (s : State) (b : Byte) (off : Offset) (rest : List Event),
    s.pending = .write 0 b :: .read off :: rest →
    ∃ t u, execCommand b (withPending (.read off :: rest) s) = .next t ∧
      steps 2 s = .next u ∧ u.rdata = s.rdata ++ [readReg t off] ∧ SameBlock t u ∧ u.pending = rest

/-! ## The commands -/

/-- 41_scaler.md R97: `ExecCommand(b)` for every byte, with the fields of the byte read as numbers. -/
def Obligations.CommandWriteFollowsThePseudocode : Prop :=
  ∀ (s : State) (b : Byte) (rest : List Event), s.pending = .write 0 b :: rest →
    (b.toNat / 8 ≠ 0 ∨ b.toNat % 4 = 3 → step s = .next { s with err := true, pending := rest }) ∧
    (b.toNat / 8 = 0 → b.toNat % 4 ≠ 3 → ∀ v, v = (if b.toNat / 4 % 2 = 1 then s.cnt else s.snap) →
      step s = .next
        { s with
          pending := rest
          snap := v
          result :=
            if b.toNat % 4 = 0 then v
            else if b.toNat % 4 = 1 then eval s.cfg.width s.cfg.fMs v
            else eval s.cfg.width s.cfg.fUs v })

/-- 41_scaler.md R104: a reserved command's only effect is `STATUS.ERR <- 1`; if ERR is 1 it stays 1. -/
def Obligations.ReservedCommandOnlySetsErr : Prop :=
  ∀ (s : State) (b : Byte) (rest : List Event), s.pending = .write 0 b :: rest →
    b.toNat / 8 ≠ 0 ∨ b.toNat % 4 = 3 →
    step s = .next { s with err := true, pending := rest }

/-- 41_scaler.md R98: EVAL.RAW completes, and what it leaves. -/
def Obligations.EvalRawResult : Prop :=
  encode .evalRaw = 0x00 ∧ ∀ s : State, exec .evalRaw s = .next { s with result := s.snap }

/-- 41_scaler.md R99: EVAL.MS completes, and what it leaves; the rule's example. -/
def Obligations.EvalMsResult : Prop :=
  encode .evalMs = 0x01 ∧
  (∀ s : State, exec .evalMs s = .next { s with result := eval s.cfg.width s.cfg.fMs s.snap }) ∧
  eval .w32 Config.exampleFMs 100000 = 204796

/-- 41_scaler.md R100: EVAL.US completes, and what it leaves; the rule's example. -/
def Obligations.EvalUsResult : Prop :=
  encode .evalUs = 0x02 ∧
  (∀ s : State, exec .evalUs s = .next { s with result := eval s.cfg.width s.cfg.fUs s.snap }) ∧
  eval .w32 Config.exampleFUs 1000 = 2048000

/-- 41_scaler.md R101: SNAP.RAW completes, and what it leaves. -/
def Obligations.SnapRawResult : Prop :=
  encode .snapRaw = 0x04 ∧ ∀ s : State, exec .snapRaw s = .next { s with snap := s.cnt, result := s.cnt }

/-- 41_scaler.md R102: NOW.MS completes, and what it leaves (`Eval` reads the newly written SNAP); the rule's
example and its wrap point for the example descriptor. -/
def Obligations.NowMsResult : Prop :=
  encode .nowMs = 0x05 ∧
  (∀ s : State, exec .nowMs s
    = .next { s with snap := s.cnt, result := eval s.cfg.width s.cfg.fMs s.cnt }) ∧
  eval .w32 Config.exampleFMs 0x000186A0 = 0x00031FFC ∧
  evalSum Config.exampleFMs 2097179001 < 2 ^ 32 ∧ 2 ^ 32 ≤ evalSum Config.exampleFMs 2097179002

/-- 41_scaler.md R103: NOW.US completes, and what it leaves; the rule's example and the period of its wrap for
the example descriptor. -/
def Obligations.NowUsResult : Prop :=
  encode .nowUs = 0x06 ∧
  (∀ s : State, exec .nowUs s
    = .next { s with snap := s.cnt, result := eval s.cfg.width s.cfg.fUs s.cnt }) ∧
  eval .w32 Config.exampleFUs 0x80000000 = 0x00000000 ∧
  ∀ v : Word, eval .w32 Config.exampleFUs (v + 0x00200000) = eval .w32 Config.exampleFUs v

/-- 41_scaler.md R97-R100, 10_state.md R20: the frame of EVAL.RAW, EVAL.MS, EVAL.US: RESULT may change and
nothing else, and every window byte outside RESULT reads as before. -/
def Obligations.EvalCommandsFrame : Prop :=
  ∀ (s t : State) (i : Instr), i ∈ [Instr.evalRaw, .evalMs, .evalUs] → exec i s = .next t →
    t.cfg = s.cfg ∧ t.cnt = s.cnt ∧ t.snap = s.snap ∧ t.err = s.err ∧ t.pending = s.pending ∧
    t.rdata = s.rdata ∧
    ∀ off : Offset, ¬ (4 ≤ off.toNat ∧ off.toNat ≤ 7) → readReg t off = readReg s off

/-- 41_scaler.md R97, R101-R103, 10_state.md R20: the frame of SNAP.RAW, NOW.MS, NOW.US: SNAP holds CNT, RESULT
may change, and nothing else, and every window byte outside RESULT and SNAP reads as before. -/
def Obligations.CaptureCommandsFrame : Prop :=
  ∀ (s t : State) (i : Instr), i ∈ [Instr.snapRaw, .nowMs, .nowUs] → exec i s = .next t →
    t.cfg = s.cfg ∧ t.cnt = s.cnt ∧ t.snap = s.cnt ∧ t.err = s.err ∧ t.pending = s.pending ∧
    t.rdata = s.rdata ∧
    ∀ off : Offset, ¬ (4 ≤ off.toNat ∧ off.toNat ≤ 11) → readReg t off = readReg s off

/-! ## The scaler -/

/-- 41_scaler.md R90, R92: `Eval(F, v)` as arithmetic on the numbers that the descriptor and the value are: each
term floored on its own, the correction once, clamped at 0, modulo `2^W`; the rules' examples. -/
def Obligations.EvalIsTheFormula : Prop :=
  (∀ (w : Width) (F : Descriptor) (v : Word),
    ((eval w F v).toNat : Int)
      = max 0 (((F.toNat % 2 ^ 16 * v.toNat
            + ∑ k ∈ Finset.range 32, (if F.toNat.testBit (32 + k) then v.toNat / 2 ^ k else 0) : Nat) : Int)
          + (if F.toNat / 2 ^ 31 % 2 = 1 then ((F.toNat / 2 ^ 16 % 2 ^ 16 : Nat) : Int) - 2 ^ 16
             else ((F.toNat / 2 ^ 16 % 2 ^ 16 : Nat) : Int)))
        % 2 ^ w.bits) ∧
  eval .w32 Config.exampleFMs 1000 = 2046 ∧ eval .w32 Config.exampleFUs 0x80000000 = 0

/-- 41_scaler.md R91: a negative sum gives 0; it can be negative only when the correction is, and the terms sum
to less than its opposite; the rule's example. -/
def Obligations.NegativeSumClampsToZero : Prop :=
  (∀ (w : Width) (F : Descriptor) (v : Word), evalSum F v.toNat < 0 →
    eval w F v = 0 ∧ corr F < 0 ∧
    ((coef F * v.toNat + ((shifts F).map fun k => v.toNat / 2 ^ k).sum : Nat) : Int) < - corr F) ∧
  evalSum 0x00000001FFFF0000 0 = -1 ∧ eval .w32 0x00000001FFFF0000 0 = 0

/-- 41_scaler.md R93: the order of the terms does not affect the sum: any listing of the shift amounts gives
it. -/
def Obligations.TermOrderIsIrrelevant : Prop :=
  ∀ (F : Descriptor) (v : Nat) (ks : List Nat), ks.Perm (shifts F) →
    evalSum F v = ((coef F * v + (ks.map fun k => v / 2 ^ k).sum : Nat) : Int) + corr F

/-- 41_scaler.md R94: the clamped sum is non-decreasing in the value, and so is `Eval` while the clamped sum is
below `2^W`. -/
def Obligations.EvalIsMonotoneBelowTheWrap : Prop :=
  ∀ (w : Width) (F : Descriptor) (v₁ v₂ : Word), v₁.toNat ≤ v₂.toNat →
    clampSum (evalSum F v₁.toNat) ≤ clampSum (evalSum F v₂.toNat) ∧
    (clampSum (evalSum F v₂.toNat) < 2 ^ w.bits → (eval w F v₁).toNat ≤ (eval w F v₂).toNat)

/-- 41_scaler.md R95: a descriptor with SHM = 0 and CORR = 0 multiplies; the rule's example. -/
def Obligations.WholeMultipleIsExact : Prop :=
  (∀ (w : Width) (m : BitVec 16) (v : Word),
    (eval w ((0 : BitVec 32) ++ (0 : BitVec 16) ++ m) v).toNat = m.toNat * v.toNat % 2 ^ w.bits) ∧
  eval .w32 Config.exampleFUs 1000 = 2048000

/-- 41_scaler.md R96: the floored terms under-report the exact product by e, with `0 ≤ e < n` for n > 0 shift
terms and `e = 0` for none, before correction, clamp and truncation. -/
def Obligations.FloorTermsUnderReport : Prop :=
  ∀ (F : Descriptor) (v : Nat) (e : ℚ),
    e = (v : ℚ) * ((coef F : ℚ) + ((shifts F).map fun k => (1 / 2 : ℚ) ^ k).sum)
        - ((evalSum F v - corr F : Int) : ℚ) →
    0 ≤ e ∧ ((shifts F).length ≠ 0 → e < (shifts F).length) ∧ ((shifts F).length = 0 → e = 0)

/-- 30_encoding.md R69: bit 0 of SHM is worth one of COEF, and shift bits at or above W have no effect on W-bit
values. -/
def Obligations.EquivalentDescriptors : Prop :=
  (∀ (w : Width) (shm : BitVec 32) (co cf : BitVec 16) (v : Word), cf.toNat < 65535 → shm.toNat % 2 = 1 →
    eval w (shm ++ co ++ cf) v = eval w ((shm - 1) ++ co ++ (cf + 1)) v) ∧
  (∀ (w : Width) (shm shm' : BitVec 32) (co cf : BitVec 16) (v : Word), v.toNat < 2 ^ w.bits →
    shm.toNat % 2 ^ w.bits = shm'.toNat % 2 ^ w.bits →
    eval w (shm ++ co ++ cf) v = eval w (shm' ++ co ++ cf) v)

/-- 00_scope.md R9: the 50-bit two's complement accumulator never overflows: after every prefix of the shift
terms, and after the correction, it holds the exact integer sum, which lies in `[-32768, 2^49)`. The largest sum
is the one at CORR = 32767, which is more than the sum R9's note names (log entry 13). -/
def Obligations.FiftyBitAccumulatorIsExact : Prop :=
  (∀ (F : Descriptor) (v : Word),
    (∀ n, n ≤ 32 →
      (addShiftTerms50 F v (List.range n) ((coefField F).setWidth 50 * v.setWidth 50)).toInt
        = addShiftTerms F v.toNat (List.range n) ((coef F * v.toNat : Nat) : Int)) ∧
    (accumulator50 F v).toInt = evalSum F v.toNat ∧
    -32768 ≤ evalSum F v.toNat ∧ evalSum F v.toNat < 2 ^ 49 ∧ evalSum F v.toNat ≤ 281479271645150) ∧
  evalSum 0xFFFFFFFF7FFFFFFF (2 ^ 32 - 1) = 281479271645150

/-- 00_scope.md R9's note in brackets, as it stands: 281479271612382 is the largest sum, reached at the
descriptor of all ones. EXPECTED TO FAIL: it is reached there, and a descriptor with a positive correction gives
more (log entry 13). -/
def Obligations.LargestSumAsNoted : Prop :=
  evalSum 0xFFFFFFFFFFFFFFFF (2 ^ 32 - 1) = 281479271612382 ∧
  ∀ (F : Descriptor) (v : Word), evalSum F v.toNat ≤ 281479271612382

/-! ## Runs -/

/-- 20_memory.md R49: no TICK, read, or write other than to CMD changes a latch: through any events but writes
to CMD and RESETs, SNAP and RESULT and all their bytes stand. -/
def Obligations.QuietEventsKeepTheLatches : Prop :=
  ∀ (s : State) (es rest : List Event), s.pending = es ++ rest → (∀ e ∈ es, isQuiet e = true) →
    ∃ t, steps es.length s = .next t ∧ t.pending = rest ∧ t.snap = s.snap ∧ t.result = s.result ∧
      t.rdata.length = s.rdata.length + readCount es ∧
      ∀ off : Offset, 4 ≤ off.toNat → off.toNat ≤ 11 → readReg t off = readReg s off

/-- 41_scaler.md R105: a command NOW.MS, NOW.US or SNAP.RAW followed by the four byte reads of RESULT, with any
events between them but writes to CMD and RESETs, yields exactly the conversion of `CNT` as it stood at the
command. The bytes answered to the four reads stand in `rdata` among those answered to the events between. -/
def Obligations.ConversionReadsBackExactly : Prop :=
  ∀ (s : State) (b : Byte) (r : Word) (g₀ g₁ g₂ g₃ rest : List Event),
    s.pending = .write 0 b :: (g₀ ++ .read 0x4 :: (g₁ ++ .read 0x5 :: (g₂ ++ .read 0x6 ::
      (g₃ ++ .read 0x7 :: rest)))) →
    (∀ e ∈ g₀ ++ g₁ ++ g₂ ++ g₃, isQuiet e = true) →
    (b = 0x05 ∧ r = eval s.cfg.width s.cfg.fMs s.cnt ∨ b = 0x06 ∧ r = eval s.cfg.width s.cfg.fUs s.cnt ∨
      b = 0x04 ∧ r = s.cnt) →
    ∃ (t : State) (a₀ a₁ a₂ a₃ : List Byte) (b₀ b₁ b₂ b₃ : Byte),
      steps (g₀.length + g₁.length + g₂.length + g₃.length + 5) s = .next t ∧ t.pending = rest ∧
      t.rdata = s.rdata ++ a₀ ++ [b₀] ++ a₁ ++ [b₁] ++ a₂ ++ [b₂] ++ a₃ ++ [b₃] ∧
      a₀.length = readCount g₀ ∧ a₁.length = readCount g₁ ∧ a₂.length = readCount g₂ ∧
      a₃.length = readCount g₃ ∧ assembleBytes b₀ b₁ b₂ b₃ = r

/-- 41_scaler.md R99, 70_reset_and_hazards.md R147: NOW.US followed by EVAL.MS gives both units for one instant,
whatever ticks, reads and other quiet events fall between; R147's hazard is a capture between, after which
EVAL.MS converts that later instant. -/
def Obligations.OneSnapshotTwoUnits : Prop :=
  (∀ (s : State) (gap rest : List Event),
    s.pending = .write 0 0x06 :: (gap ++ .write 0 0x01 :: rest) → (∀ e ∈ gap, isQuiet e = true) →
    ∃ s₁ s₂, steps 1 s = .next s₁ ∧ steps (gap.length + 2) s = .next s₂ ∧ s₂.pending = rest ∧
      s₁.result = eval s.cfg.width s.cfg.fUs s.cnt ∧ s₂.result = eval s.cfg.width s.cfg.fMs s.cnt ∧
      s₂.snap = s.cnt) ∧
  (∀ (s : State) (e : Event) (rest : List Event),
    s.pending = e :: .write 0 0x01 :: rest → isCapture e = true →
    ∃ t, steps 2 s = .next t ∧ t.pending = rest ∧ t.result = eval s.cfg.width s.cfg.fMs s.cnt)

/-- 70_reset_and_hazards.md R150: when a TICK and a capturing command are simultaneous, both orders are admitted:
the captured value is `c` or `c + 1 mod 2^W`, and the final `CNT` is `c + 1 mod 2^W` in both. -/
def Obligations.TickCommandRace : Prop :=
  ∀ (s : State) (e : Event) (rest es : List Event) (c : Word), isCapture e = true →
    c = BitVec.ofNat 32 ((s.cnt.toNat + 1) % 2 ^ s.cfg.width.bits) →
    es ∈ simultaneousOrders .tick e →
    ∃ t, steps 2 (withPending (es ++ rest) s) = .next t ∧ t.pending = rest ∧ t.cnt = c ∧
      (es = [.tick, e] → t.snap = c) ∧ (es = [e, .tick] → t.snap = s.cnt)

/-- 70_reset_and_hazards.md R148: for two counts with no wrap of `CNT` between them, the modular difference of
the results is the converted interval exactly when the unwrapped values differ by less than `2^W`; across a wrap
of `CNT` it need not be, by the rule's example. -/
def Obligations.ResultWrapHazard : Prop :=
  (∀ (w : Width) (F : Descriptor) (v₁ v₂ : Word), v₁.toNat ≤ v₂.toNat →
    ((((eval w F v₂).toNat : Int) - (eval w F v₁).toNat) % 2 ^ w.bits
        = (clampSum (evalSum F v₂.toNat) : Int) - clampSum (evalSum F v₁.toNat) ↔
      (clampSum (evalSum F v₂.toNat) : Int) - clampSum (evalSum F v₁.toNat) < 2 ^ w.bits)) ∧
  eval .w32 Config.exampleFMs 0xFFFFFFFF = 206045178 ∧ eval .w32 Config.exampleFMs 0 = 0 ∧
  (0 - 206045178 : Int) % 2 ^ 32 = 4088922118
end

