-- ==== Sys2Proof/Laws/PerInstr.lean ====
section
/-! SUPPORT. Per-instruction families: one lemma per constructor of Instr. -/

namespace Sys2Proof.Laws

/-- The byte a command encodes to is legal: Z = 0 and U is not 3 (30_encoding.md R61), and its field S says
whether the command captures (R63). -/
def EncodesLegal.Statement (i : Instr) : Prop :=
  cmdZ (encode i) = 0 ∧ cmdU (encode i) ≠ 3 ∧ (cmdS (encode i) = true ↔ i.sField = 1)

theorem EncodesLegal.evalRaw : EncodesLegal.Statement .evalRaw := by unfold EncodesLegal.Statement; decide
theorem EncodesLegal.evalMs : EncodesLegal.Statement .evalMs := by unfold EncodesLegal.Statement; decide
theorem EncodesLegal.evalUs : EncodesLegal.Statement .evalUs := by unfold EncodesLegal.Statement; decide
theorem EncodesLegal.snapRaw : EncodesLegal.Statement .snapRaw := by unfold EncodesLegal.Statement; decide
theorem EncodesLegal.nowMs : EncodesLegal.Statement .nowMs := by unfold EncodesLegal.Statement; decide
theorem EncodesLegal.nowUs : EncodesLegal.Statement .nowUs := by unfold EncodesLegal.Statement; decide

end Sys2Proof.Laws
end

