-- ==== Sys2Proof/Laws/Scaler.lean ====
section
/-! SUPPORT. What the scaler and the latch bytes compute (41_scaler.md R90-R92, 20_memory.md R42). -/

namespace Sys2Proof.Machine

theorem two_pow_bits_pos (w : Width) : 0 < 2 ^ w.bits := Nat.two_pow_pos _

/-- `W` is at most 32 (00_scope.md R5), so `2^W` is at most `2^32`. -/
theorem two_pow_bits_le (w : Width) : 2 ^ w.bits ≤ 2 ^ 32 := by cases w <;> decide

/-- `2^W` divides `2^32`. -/
theorem two_pow_bits_dvd (w : Width) : 2 ^ w.bits ∣ 2 ^ 32 := by cases w <;> decide

/-- `narrow` is the residue modulo `2^W`, whole: the container loses nothing. -/
@[simp] theorem toNat_narrow (w : Width) (n : Nat) : (narrow w n).toNat = n % 2 ^ w.bits := by
  have h₁ := Nat.mod_lt n (two_pow_bits_pos w)
  have h₂ := two_pow_bits_le w
  rw [narrow, BitVec.toNat_ofNat, Nat.mod_eq_of_lt (by omega)]

/-- A narrowed value is a W-bit value. -/
theorem toNat_narrow_lt (w : Width) (n : Nat) : (narrow w n).toNat < 2 ^ w.bits := by
  rw [toNat_narrow]; exact Nat.mod_lt _ (two_pow_bits_pos w)

/-- Everything `eval` computes: the clamped sum modulo `2^W`. -/
theorem toNat_eval (w : Width) (F : Descriptor) (v : Word) :
    (eval w F v).toNat = clampSum (evalSum F v.toNat) % 2 ^ w.bits := toNat_narrow w _

/-- `Eval` returns a W-bit value (41_scaler.md R92). -/
theorem toNat_eval_lt (w : Width) (F : Descriptor) (v : Word) : (eval w F v).toNat < 2 ^ w.bits :=
  toNat_narrow_lt w _

/-- The clamp, as a maximum with 0. -/
theorem coe_clampSum (a : Int) : (clampSum a : Int) = max 0 a := by
  unfold clampSum; split <;> omega

/-- The loop over any list of shift amounts adds the floored terms of those that are present. -/
theorem addShiftTerms_eq (F : Descriptor) (v : Nat) (ks : List Nat) (acc : Int) :
    addShiftTerms F v ks acc = acc + (((ks.filter (hasShift F)).map fun k => v / 2 ^ k).sum : Nat) := by
  induction ks generalizing acc with
  | nil => simp [addShiftTerms]
  | cons k ks ih =>
    rw [addShiftTerms, ih]
    by_cases h : hasShift F k = true
    · simp only [h, if_true, List.filter_cons_of_pos, List.map_cons, List.sum_cons, Nat.shiftRight_eq_div_pow]
      push_cast
      ring
    · simp [h]

/-- The exact sum, over the shift list of the descriptor. -/
theorem evalSum_eq (F : Descriptor) (v : Nat) :
    evalSum F v = ((coef F * v : Nat) : Int) + (((shifts F).map fun k => v / 2 ^ k).sum : Nat) + corr F := by
  rw [evalSum, addShiftTerms_eq]; rfl

/-- COEF is a 16-bit number. -/
theorem coef_lt (F : Descriptor) : coef F < 2 ^ 16 := (coefField F).isLt

/-- CORR is a 16-bit two's complement number (30_encoding.md R67). -/
theorem corr_range (F : Descriptor) : -32768 ≤ corr F ∧ corr F ≤ 32767 := by
  have h₁ := BitVec.le_toInt (corrField F)
  have h₂ := BitVec.toInt_lt (x := corrField F)
  unfold corr
  constructor <;> omega

/-- A shift amount is below 32 (30_encoding.md R67). -/
theorem lt_of_mem_shifts (F : Descriptor) (k : Nat) (h : k ∈ shifts F) : k < 32 := by
  simp only [shifts, List.mem_filter, List.mem_range] at h
  exact h.1

/-- Appending a byte on the right, as arithmetic. -/
theorem toNat_append_byte (n : Nat) (x : BitVec n) (y : Byte) : (x ++ y).toNat = x.toNat * 2 ^ 8 + y.toNat := by
  rw [BitVec.toNat_append, ← Nat.shiftLeft_add_eq_or_of_lt y.isLt, Nat.shiftLeft_eq]

/-- The four bytes of a latch assemble to it. -/
theorem assembleBytes_byteOf (v : Word) :
    assembleBytes (byteOf v 0) (byteOf v 1) (byteOf v 2) (byteOf v 3) = v := by
  apply BitVec.eq_of_toNat_eq
  have h := v.isLt
  unfold assembleBytes
  simp only [toNat_append_byte, byteOf, BitVec.extractLsb'_toNat, Nat.shiftRight_eq_div_pow]
  omega

/-- A byte of a latch above every bit of a W-bit value is 0. -/
theorem byteOf_eq_zero (v : Word) (i : Nat) (h : v.toNat < 2 ^ (8 * i)) : byteOf v i = 0 := by
  apply BitVec.eq_of_toNat_eq
  simp [byteOf, Nat.shiftRight_eq_div_pow, Nat.div_eq_of_lt h]

end Sys2Proof.Machine
end

