-- ==== Sys2Proof/Laws/State.lean ====
section
/-! SUPPORT. One lemma per field per update of State. -/

namespace Sys2Proof.Machine

@[simp] theorem tickCounter_cfg (s : State) : (tickCounter s).cfg = s.cfg := rfl
@[simp] theorem tickCounter_cnt (s : State) : (tickCounter s).cnt = narrow s.cfg.width (s.cnt.toNat + 1) := rfl
@[simp] theorem tickCounter_snap (s : State) : (tickCounter s).snap = s.snap := rfl
@[simp] theorem tickCounter_result (s : State) : (tickCounter s).result = s.result := rfl
@[simp] theorem tickCounter_err (s : State) : (tickCounter s).err = s.err := rfl
@[simp] theorem tickCounter_pending (s : State) : (tickCounter s).pending = s.pending := rfl
@[simp] theorem tickCounter_rdata (s : State) : (tickCounter s).rdata = s.rdata := rfl

@[simp] theorem resetBlock_cfg (s : State) : (resetBlock s).cfg = s.cfg := rfl
@[simp] theorem resetBlock_cnt (s : State) : (resetBlock s).cnt = 0 := rfl
@[simp] theorem resetBlock_snap (s : State) : (resetBlock s).snap = 0 := rfl
@[simp] theorem resetBlock_result (s : State) : (resetBlock s).result = 0 := rfl
@[simp] theorem resetBlock_err (s : State) : (resetBlock s).err = false := rfl
@[simp] theorem resetBlock_pending (s : State) : (resetBlock s).pending = s.pending := rfl
@[simp] theorem resetBlock_rdata (s : State) : (resetBlock s).rdata = s.rdata := rfl

@[simp] theorem capture_cfg (s : State) : (capture s).cfg = s.cfg := rfl
@[simp] theorem capture_cnt (s : State) : (capture s).cnt = s.cnt := rfl
@[simp] theorem capture_snap (s : State) : (capture s).snap = s.cnt := rfl
@[simp] theorem capture_result (s : State) : (capture s).result = s.result := rfl
@[simp] theorem capture_err (s : State) : (capture s).err = s.err := rfl
@[simp] theorem capture_pending (s : State) : (capture s).pending = s.pending := rfl
@[simp] theorem capture_rdata (s : State) : (capture s).rdata = s.rdata := rfl

@[simp] theorem latchResult_cfg (r : Word) (s : State) : (latchResult r s).cfg = s.cfg := rfl
@[simp] theorem latchResult_cnt (r : Word) (s : State) : (latchResult r s).cnt = s.cnt := rfl
@[simp] theorem latchResult_snap (r : Word) (s : State) : (latchResult r s).snap = s.snap := rfl
@[simp] theorem latchResult_result (r : Word) (s : State) : (latchResult r s).result = r := rfl
@[simp] theorem latchResult_err (r : Word) (s : State) : (latchResult r s).err = s.err := rfl
@[simp] theorem latchResult_pending (r : Word) (s : State) : (latchResult r s).pending = s.pending := rfl
@[simp] theorem latchResult_rdata (r : Word) (s : State) : (latchResult r s).rdata = s.rdata := rfl

@[simp] theorem convertRaw_cfg (s : State) : (convertRaw s).cfg = s.cfg := rfl
@[simp] theorem convertRaw_cnt (s : State) : (convertRaw s).cnt = s.cnt := rfl
@[simp] theorem convertRaw_snap (s : State) : (convertRaw s).snap = s.snap := rfl
@[simp] theorem convertRaw_result (s : State) : (convertRaw s).result = s.snap := rfl
@[simp] theorem convertRaw_err (s : State) : (convertRaw s).err = s.err := rfl
@[simp] theorem convertRaw_pending (s : State) : (convertRaw s).pending = s.pending := rfl
@[simp] theorem convertRaw_rdata (s : State) : (convertRaw s).rdata = s.rdata := rfl

@[simp] theorem convertBy_cfg (F : Descriptor) (s : State) : (convertBy F s).cfg = s.cfg := rfl
@[simp] theorem convertBy_cnt (F : Descriptor) (s : State) : (convertBy F s).cnt = s.cnt := rfl
@[simp] theorem convertBy_snap (F : Descriptor) (s : State) : (convertBy F s).snap = s.snap := rfl
@[simp] theorem convertBy_result (F : Descriptor) (s : State) : (convertBy F s).result = eval s.cfg.width F s.snap := rfl
@[simp] theorem convertBy_err (F : Descriptor) (s : State) : (convertBy F s).err = s.err := rfl
@[simp] theorem convertBy_pending (F : Descriptor) (s : State) : (convertBy F s).pending = s.pending := rfl
@[simp] theorem convertBy_rdata (F : Descriptor) (s : State) : (convertBy F s).rdata = s.rdata := rfl

@[simp] theorem recordError_cfg (s : State) : (recordError s).cfg = s.cfg := rfl
@[simp] theorem recordError_cnt (s : State) : (recordError s).cnt = s.cnt := rfl
@[simp] theorem recordError_snap (s : State) : (recordError s).snap = s.snap := rfl
@[simp] theorem recordError_result (s : State) : (recordError s).result = s.result := rfl
@[simp] theorem recordError_err (s : State) : (recordError s).err = true := rfl
@[simp] theorem recordError_pending (s : State) : (recordError s).pending = s.pending := rfl
@[simp] theorem recordError_rdata (s : State) : (recordError s).rdata = s.rdata := rfl

@[simp] theorem clearError_cfg (s : State) : (clearError s).cfg = s.cfg := rfl
@[simp] theorem clearError_cnt (s : State) : (clearError s).cnt = s.cnt := rfl
@[simp] theorem clearError_snap (s : State) : (clearError s).snap = s.snap := rfl
@[simp] theorem clearError_result (s : State) : (clearError s).result = s.result := rfl
@[simp] theorem clearError_err (s : State) : (clearError s).err = false := rfl
@[simp] theorem clearError_pending (s : State) : (clearError s).pending = s.pending := rfl
@[simp] theorem clearError_rdata (s : State) : (clearError s).rdata = s.rdata := rfl

@[simp] theorem driveRead_cfg (off : Offset) (s : State) : (driveRead off s).cfg = s.cfg := rfl
@[simp] theorem driveRead_cnt (off : Offset) (s : State) : (driveRead off s).cnt = s.cnt := rfl
@[simp] theorem driveRead_snap (off : Offset) (s : State) : (driveRead off s).snap = s.snap := rfl
@[simp] theorem driveRead_result (off : Offset) (s : State) : (driveRead off s).result = s.result := rfl
@[simp] theorem driveRead_err (off : Offset) (s : State) : (driveRead off s).err = s.err := rfl
@[simp] theorem driveRead_pending (off : Offset) (s : State) : (driveRead off s).pending = s.pending := rfl
@[simp] theorem driveRead_rdata (off : Offset) (s : State) : (driveRead off s).rdata = s.rdata ++ [readReg s off] := rfl

@[simp] theorem withPending_cfg (es : List Event) (s : State) : (withPending es s).cfg = s.cfg := rfl
@[simp] theorem withPending_cnt (es : List Event) (s : State) : (withPending es s).cnt = s.cnt := rfl
@[simp] theorem withPending_snap (es : List Event) (s : State) : (withPending es s).snap = s.snap := rfl
@[simp] theorem withPending_result (es : List Event) (s : State) : (withPending es s).result = s.result := rfl
@[simp] theorem withPending_err (es : List Event) (s : State) : (withPending es s).err = s.err := rfl
@[simp] theorem withPending_pending (es : List Event) (s : State) : (withPending es s).pending = es := rfl
@[simp] theorem withPending_rdata (es : List Event) (s : State) : (withPending es s).rdata = s.rdata := rfl

@[simp] theorem writeStatus_cfg (b : Byte) (s : State) : (writeStatus b s).cfg = s.cfg := by
  unfold writeStatus; split <;> rfl
@[simp] theorem writeStatus_cnt (b : Byte) (s : State) : (writeStatus b s).cnt = s.cnt := by
  unfold writeStatus; split <;> rfl
@[simp] theorem writeStatus_snap (b : Byte) (s : State) : (writeStatus b s).snap = s.snap := by
  unfold writeStatus; split <;> rfl
@[simp] theorem writeStatus_result (b : Byte) (s : State) : (writeStatus b s).result = s.result := by
  unfold writeStatus; split <;> rfl
@[simp] theorem writeStatus_err (b : Byte) (s : State) : (writeStatus b s).err = if b.getLsbD 0 then false else s.err := by
  unfold writeStatus; split <;> rfl
@[simp] theorem writeStatus_pending (b : Byte) (s : State) : (writeStatus b s).pending = s.pending := by
  unfold writeStatus; split <;> rfl
@[simp] theorem writeStatus_rdata (b : Byte) (s : State) : (writeStatus b s).rdata = s.rdata := by
  unfold writeStatus; split <;> rfl

@[simp] theorem withFetchWord_cfg (s : State) (nbits w : Nat) : (s.withFetchWord nbits w).cfg = s.cfg := rfl
@[simp] theorem withFetchWord_cnt (s : State) (nbits w : Nat) : (s.withFetchWord nbits w).cnt = s.cnt := rfl
@[simp] theorem withFetchWord_snap (s : State) (nbits w : Nat) : (s.withFetchWord nbits w).snap = s.snap := rfl
@[simp] theorem withFetchWord_result (s : State) (nbits w : Nat) : (s.withFetchWord nbits w).result = s.result := rfl
@[simp] theorem withFetchWord_err (s : State) (nbits w : Nat) : (s.withFetchWord nbits w).err = s.err := rfl
@[simp] theorem withFetchWord_pending (s : State) (nbits w : Nat) : (s.withFetchWord nbits w).pending = commandEvent nbits w :: s.pending := rfl
@[simp] theorem withFetchWord_rdata (s : State) (nbits w : Nat) : (s.withFetchWord nbits w).rdata = s.rdata := rfl

@[simp] theorem withPending_withPending (es fs : List Event) (s : State) :
    withPending es (withPending fs s) = withPending es s := rfl

@[simp] theorem withPending_pending_self (s : State) : withPending s.pending s = s := rfl

end Sys2Proof.Machine
end

