-- ==== Sys2Proof/Laws/Step.lean ====
section
/-! SUPPORT. What a step can do, said once, and how runs compose. -/

namespace Sys2Proof.Machine

/-- The state a command leaves, for each command (30_encoding.md R65). -/
def afterCommand (i : Instr) (s : State) : State :=
  match i with
  | .evalRaw => convertRaw s
  | .evalMs => convertBy s.cfg.fMs s
  | .evalUs => convertBy s.cfg.fUs s
  | .snapRaw => convertRaw (capture s)
  | .nowMs => convertBy s.cfg.fMs (capture s)
  | .nowUs => convertBy s.cfg.fUs (capture s)

/-- Every command answers a next state. -/
theorem exec_eq (i : Instr) (s : State) : exec i s = .next (afterCommand i s) := by cases i <;> rfl

/-- The state a write of a byte to CMD leaves (41_scaler.md R97, R104). -/
def afterByte (b : Byte) (s : State) : State :=
  match decode b with
  | .error _ => recordError s
  | .ok i => afterCommand i s

/-- The state a host write leaves (20_memory.md R45). -/
def afterWrite (off : Offset) (b : Byte) (s : State) : State :=
  if off = 0 then afterByte b s else if off = 1 then writeStatus b s else s

/-- The state one event leaves. -/
def afterEvent (e : Event) (s : State) : State :=
  match e with
  | .tick => tickCounter s
  | .reset => resetBlock s
  | .read off => driveRead off s
  | .write off b => afterWrite off b s

/-- The write of a byte to CMD answers a next state. -/
theorem execCommand_eq (b : Byte) (s : State) : execCommand b s = .next (afterByte b s) := by
  unfold execCommand afterByte
  cases decode b with
  | ok i => exact exec_eq i s
  | error r => rfl

/-- Every host write answers a next state. -/
theorem writeReg_eq (off : Offset) (b : Byte) (s : State) : writeReg off b s = .next (afterWrite off b s) := by
  unfold writeReg
  split
  · rename_i h
    obtain rfl : off = 0 := BitVec.eq_of_toNat_eq (by simpa using h)
    exact execCommand_eq b s
  · rename_i h
    obtain rfl : off = 1 := BitVec.eq_of_toNat_eq (by simpa using h)
    rfl
  · rename_i h₀ h₁
    have n₀ : off ≠ 0 := by rintro rfl; exact h₀ rfl
    have n₁ : off ≠ 1 := by rintro rfl; exact h₁ rfl
    rw [afterWrite, if_neg n₀, if_neg n₁]

/-- Every event answers a next state. -/
theorem perform_eq (e : Event) (s : State) : perform e s = .next (afterEvent e s) := by
  cases e with
  | tick => rfl
  | reset => rfl
  | read off => rfl
  | write off b => exact writeReg_eq off b s

/-- The step on a pending event. -/
theorem step_of_pending {s : State} {e : Event} {rest : List Event} (h : s.pending = e :: rest) :
    step s = .next (afterEvent e (withPending rest s)) := by
  simp only [step, performNext, h, perform_eq]

/-- The inversion of a step: nothing was pending and nothing changed, or the oldest event was performed. -/
theorem step_cases {s t : State} (h : step s = .next t) :
    (s.pending = [] ∧ t = s) ∨
    ∃ e rest, s.pending = e :: rest ∧ t = afterEvent e (withPending rest s) := by
  cases hp : s.pending with
  | nil =>
    left
    simp only [step, performNext, hp] at h
    exact ⟨rfl, (Host.Outcome.next.inj h).symm⟩
  | cons e rest =>
    right
    rw [step_of_pending hp] at h
    exact ⟨e, rest, rfl, (Host.Outcome.next.inj h).symm⟩

/-- The state that events leave, one after the other. -/
def afterEvents : List Event → State → State
  | [], s => s
  | e :: es, s => afterEvents es (afterEvent e s)

@[simp] theorem afterEvents_nil (s : State) : afterEvents [] s = s := rfl

theorem afterEvents_cons (e : Event) (es : List Event) (s : State) :
    afterEvents (e :: es) s = afterEvents es (afterEvent e s) := rfl

theorem afterEvents_append (es fs : List Event) (s : State) :
    afterEvents (es ++ fs) s = afterEvents fs (afterEvents es s) := by
  induction es generalizing s with
  | nil => rfl
  | cons e es ih => exact ih _

/-- What a command leaves alone, for every command, and what it writes (41_scaler.md R97). -/
theorem afterCommand_fields (i : Instr) (s : State) :
    (afterCommand i s).cfg = s.cfg ∧ (afterCommand i s).cnt = s.cnt ∧ (afterCommand i s).err = s.err ∧
    (afterCommand i s).pending = s.pending ∧ (afterCommand i s).rdata = s.rdata := by
  cases i <;> exact ⟨rfl, rfl, rfl, rfl, rfl⟩

/-- What a host write does, by its offset and its byte: nothing, or a write of STATUS, or ERR set by a reserved
byte, or a command. -/
theorem afterWrite_cases (off : Offset) (b : Byte) (s : State) :
    (off ≠ 0 ∧ off ≠ 1 ∧ afterWrite off b s = s) ∨ (off = 1 ∧ afterWrite off b s = writeStatus b s) ∨
    (off = 0 ∧ (∃ r, decode b = .error r) ∧ afterWrite off b s = recordError s) ∨
    (off = 0 ∧ ∃ i, decode b = .ok i ∧ afterWrite off b s = afterCommand i s) := by
  unfold afterWrite
  by_cases h₀ : off = 0
  · rw [if_pos h₀, afterByte]
    cases hd : decode b with
    | ok i => exact .inr (.inr (.inr ⟨h₀, i, rfl, rfl⟩))
    | error r => exact .inr (.inr (.inl ⟨h₀, ⟨r, rfl⟩, rfl⟩))
  · by_cases h₁ : off = 1
    · exact .inr (.inl ⟨h₁, by rw [if_neg h₀, if_pos h₁]⟩)
    · exact .inl ⟨h₀, h₁, by rw [if_neg h₀, if_neg h₁]⟩

/-- No event reads or writes the list of events to come. -/
theorem afterEvent_withPending (e : Event) (es : List Event) (s : State) :
    afterEvent e (withPending es s) = withPending es (afterEvent e s) := by
  cases e with
  | tick => rfl
  | reset => rfl
  | read off => rfl
  | write off b =>
    simp only [afterEvent, afterWrite, afterByte]
    split
    · cases decode b with
      | ok i => cases i <;> rfl
      | error r => rfl
    · split
      · unfold writeStatus; split <;> rfl
      · rfl

theorem afterEvents_withPending (es fs : List Event) (s : State) :
    afterEvents es (withPending fs s) = withPending fs (afterEvents es s) := by
  induction es generalizing s with
  | nil => rfl
  | cons e es ih => rw [afterEvents_cons, afterEvent_withPending, ih, afterEvents_cons]

/-- A run through the pending events answers a next state, with the events taken. -/
theorem steps_of_pending (es rest : List Event) (s : State) (h : s.pending = es ++ rest) :
    steps es.length s = .next (withPending rest (afterEvents es s)) := by
  induction es generalizing s with
  | nil => obtain rfl : s.pending = rest := h; rfl
  | cons e es ih =>
    simp only [List.length_cons, steps, step_of_pending h]
    rw [afterEvent_withPending, ih _ rfl, afterEvents_withPending]
    rfl

/-- Runs compose. -/
theorem steps_add (j k : Nat) (s t : State) (h : steps j s = .next t) : steps (j + k) s = steps k t := by
  induction j generalizing s with
  | zero => obtain rfl := Host.Outcome.next.inj h; rw [Nat.zero_add]
  | succ j ih =>
    rw [Nat.add_right_comm]
    simp only [steps] at h ⊢
    cases hs : step s with
    | next u => rw [hs] at h; exact ih u h
    | fault r => rw [hs] at h; cases h
    | refused r => rw [hs] at h; cases h

/-- The parameters after an event. -/
@[simp] theorem afterEvent_cfg (e : Event) (s : State) : (afterEvent e s).cfg = s.cfg := by
  cases e with
  | tick => rfl
  | reset => rfl
  | read off => rfl
  | write off b =>
    rw [afterEvent]
    obtain ⟨-, -, h⟩ | ⟨-, h⟩ | ⟨-, -, h⟩ | ⟨-, i, -, h⟩ := afterWrite_cases off b s <;> rw [h]
    · simp
    · simp
    · exact (afterCommand_fields i s).1

/-- A host write never touches the counter (40_tick_counter.md R81). -/
@[simp] theorem afterWrite_cnt (off : Offset) (b : Byte) (s : State) : (afterWrite off b s).cnt = s.cnt := by
  obtain ⟨-, -, h⟩ | ⟨-, h⟩ | ⟨-, -, h⟩ | ⟨-, i, -, h⟩ := afterWrite_cases off b s <;> rw [h]
  · simp
  · simp
  · exact (afterCommand_fields i s).2.1

/-- The parameters after events. -/
@[simp] theorem afterEvents_cfg (es : List Event) (s : State) : (afterEvents es s).cfg = s.cfg := by
  induction es generalizing s with
  | nil => rfl
  | cons e es ih => rw [afterEvents_cons, ih, afterEvent_cfg]

/-- A register read depends on the parameters, ERR and the latches only (20_memory.md R44). -/
theorem readReg_congr {s t : State} (hc : t.cfg = s.cfg) (he : t.err = s.err) (hr : t.result = s.result)
    (hs : t.snap = s.snap) (off : Offset) : readReg t off = readReg s off := by
  unfold readReg statusByte
  rw [hc, he, hr, hs]

/-- What the platform's delivery can answer: the access becomes the last pending event, or it is refused by
name (20_memory.md R40). -/
theorem deliver_cases (a : Access) (s : State) :
    (∃ e, deliver a s = .next (withPending (s.pending ++ [e]) s)) ∨
    ∃ addr, offsetOf s.cfg.base addr = none ∧ deliver a s = .refused (.outsideWindow addr) := by
  cases a with
  | memRead addr =>
    cases h : offsetOf s.cfg.base addr with
    | some off => exact .inl ⟨.read off, by simp only [deliver, h]⟩
    | none => exact .inr ⟨addr, h, by simp only [deliver, h]⟩
  | memWrite addr b =>
    cases h : offsetOf s.cfg.base addr with
    | some off => exact .inl ⟨.write off b, by simp only [deliver, h]⟩
    | none => exact .inr ⟨addr, h, by simp only [deliver, h]⟩

end Sys2Proof.Machine
end

