-- ==== Sys2Proof/Tests/Slice0.lean ====
section
/-! SUPPORT. Tests, each expected value from spec/95_test_vectors.md or written out from the spec's tables, and a
witness for the hypotheses of every statement that has any. -/

namespace Sys2Proof.Tests
open Sys2Proof.Machine

/-- The start state of the command vectors K (95_test_vectors.md 2.3), with events to come. -/
def vec (es : List Event) : State where
  cfg := Config.exampleAt .w32
  cnt := 0x10
  snap := 0x3E8
  result := 0xDEADBEEF
  err := false
  pending := es
  rdata := []

/-- The fields of the block after one step. -/
def blockAfter (s : State) : Option (Word × Word × Word × Bool) :=
  match step s with
  | .next t => some (t.cnt, t.snap, t.result, t.err)
  | .fault _ => none
  | .refused _ => none

/-- The last byte answered after one step. -/
def answerAfter (s : State) : Option Byte :=
  match step s with
  | .next t => t.rdata.getLast?
  | .fault _ => none
  | .refused _ => none

/-! ## Decoding: words written out bit by bit from 30_encoding.md R65 -/

theorem test_decode_table :
    [0b00000000, 0b00000001, 0b00000010, 0b00000100, 0b00000101, 0b00000110].map (decodeTableWord 8)
      = [some .evalRaw, some .evalMs, some .evalUs, some .snapRaw, some .nowMs, some .nowUs] := by decide

/-- The reserved bytes of 95_test_vectors.md K4, K8-K12. -/
theorem test_decode_reserved :
    [0x03, 0x07, 0x08, 0x0D, 0x80, 0xFF].map (decodeTableWord 8) = [none, none, none, none, none, none] := by
  decide

/-- A command is one byte (30_encoding.md R76). -/
theorem test_decode_no_longer_word : decodeTableWord 16 0x05 = none := by decide

/-- The trace words of 95_test_vectors.md P1, P2, P4, and words with a bit set that must be 0. -/
theorem test_decode_trace :
    [0xC000, 0x8002, 0x4005, 0x0400, 0x83E7, 0x4101, 0x44AA].map decodeTrace
      = [some .reset, some (.tick 3), some (.wr 0x0 0x05), some (.rd 0x4), some (.tick 1000),
         some (.wr 0x1 0x01), some (.wr 0x4 0xAA)] ∧
    [0x1000, 0x2000, 0xC001, 0x0401].map decodeTrace = [none, none, none, none] := by decide

/-! ## Well-formedness: an ill-formed term for each check -/

/-- BASE must be a multiple of 16 (00_scope.md R7). -/
theorem test_wf_base : (({ Config.exampleAt .w32 with base := 8 } : Config).wf = false) ∧
    (Config.exampleAt .w32).wf = true := by decide

/-- A trace word carries 1 to 4096 ticks (30_encoding.md R75). -/
theorem test_wf_tick : (Stmt.tick 0).wf = false ∧ (Stmt.tick 4097).wf = false ∧ (Stmt.tick 4096).wf = true := by
  decide

/-- Every command is well formed: none has an operand (30_encoding.md R60). -/
theorem test_wf_instr : Instr.all.all Instr.wf = true := by decide

/-! ## The scaler: the vectors E of 95_test_vectors.md 2.1 -/

theorem test_eval_example_ms :
    [0, 1, 31, 32, 64, 1000, 1024, 8192, 100000, 488281, 2097179001, 2097179002, 0xFFFFFFFF].map
        (eval .w32 Config.exampleFMs)
      = [0, 2, 0x3E, 0x41, 0x83, 0x7FE, 0x831, 0x4189, 0x31FFC, 0xF4230, 0xFFFFFFFF, 1, 0x0C47FFFA] := by decide

theorem test_eval_example_us :
    [1000, 0x80000000, 0xFFFFFFFF].map (eval .w32 Config.exampleFUs) = [0x1F4000, 0, 0xFFFFF800] := by decide

/-- E17-E23: clamp, constant formula, most negative correction. -/
theorem test_eval_correction :
    [0, 1, 2, 0xFFFFFFFF].map (eval .w32 0x00000001FFFF0000) = [0, 0, 1, 0xFFFFFFFE] ∧
    [0, 0xFFFFFFFF].map (eval .w32 0x0000000000050000) = [5, 5] ∧
    eval .w32 0x0000000080000000 0xFFFFFFFF = 0 := by decide

/-- E24-E28: shift 31, all fields maximal. -/
theorem test_eval_extremes :
    [0x7FFFFFFF, 0x80000000].map (eval .w32 0x8000000000000000) = [0, 1] ∧
    [0, 1, 0xFFFFFFFF].map (eval .w32 0xFFFFFFFFFFFFFFFF) = [0, 0xFFFF, 0xFFFEFFDE] ∧
    evalSum 0xFFFFFFFFFFFFFFFF 0xFFFFFFFF = 281479271612382 := by decide

/-- E29-E34, E37, E38: the narrower widths. -/
theorem test_eval_widths :
    [127, 255].map (eval .w8 Config.exampleFMs) = [0x02, 0x08] ∧ eval .w8 Config.exampleFUs 1 = 0 ∧
    eval .w16 Config.exampleFMs 0xFFFF = 0x0C42 ∧
    [31, 32].map (eval .w16 Config.exampleFUs) = [0xF800, 0] ∧
    eval .w8 0x0000000400000000 255 = 0x3F ∧ eval .w8 0x0000010000000000 255 = 0 := by decide

/-! ## Commands: the vectors K of 95_test_vectors.md 2.3, one step each -/

theorem test_evalRaw : blockAfter (vec [.write 0 0x00]) = some (0x10, 0x3E8, 0x3E8, false) := by decide
theorem test_evalMs : blockAfter (vec [.write 0 0x01]) = some (0x10, 0x3E8, 0x7FE, false) := by decide
theorem test_evalUs : blockAfter (vec [.write 0 0x02]) = some (0x10, 0x3E8, 0x1F4000, false) := by decide
theorem test_snapRaw : blockAfter (vec [.write 0 0x04]) = some (0x10, 0x10, 0x10, false) := by decide
theorem test_nowMs : blockAfter (vec [.write 0 0x05]) = some (0x10, 0x10, 0x20, false) := by decide
theorem test_nowUs : blockAfter (vec [.write 0 0x06]) = some (0x10, 0x10, 0x8000, false) := by decide

/-- K4, K8-K12. -/
theorem test_reserved :
    [0x03, 0x07, 0x08, 0x0D, 0x80, 0xFF].map (fun b => blockAfter (vec [.write 0 b]))
      = List.replicate 6 (some (0x10, 0x3E8, 0xDEADBEEF, true)) := by decide

/-- K13: a legal command does not clear ERR. -/
theorem test_nowMs_keeps_err :
    blockAfter { vec [.write 0 0x05] with cnt := 7, err := true } = some (7, 7, 0x0E, true) := by decide

/-- The first command after reset is run by the very next step, whatever the open parameters are. -/
theorem test_first_command_after_reset :
    [0x00, 0x01, 0x02, 0x04, 0x05, 0x06].map
        (fun w => (match step (State.reset.withFetchWord 8 w) with
          | .next t => t.pending == [] && t.err == false && t.snap == 0
          | .fault _ => false
          | .refused _ => false))
      = [true, true, true, true, true, true] := by decide

/-! ## TICK, RESET, the window: the vectors T, X, B and the reads of 95_test_vectors.md -/

theorem test_tick_wraps :
    blockAfter { vec [.tick] with cnt := 0xFFFFFFFF } = some (0, 0x3E8, 0xDEADBEEF, false) ∧
    blockAfter { vec [.tick] with cfg := Config.exampleAt .w24, cnt := 0xFFFFFF, result := 0 }
      = some (0, 0x3E8, 0, false) ∧
    blockAfter { vec [.tick] with cfg := Config.exampleAt .w8, cnt := 0xFF, snap := 0, result := 0 }
      = some (0, 0, 0, false) := by decide

/-- T2, T7. -/
theorem test_tick_changes_nothing_else :
    blockAfter { vec [.tick] with cnt := 9, snap := 5, result := 0x1234, err := true }
      = some (10, 5, 0x1234, true) := by decide

/-- X1. -/
theorem test_reset :
    blockAfter { vec [.reset] with cnt := 0xFFFFFFFF, snap := 0x1234, result := 0xFFFFF800, err := true }
      = some (0, 0, 0, false) ∧ readReg (resetBlock (vec [])) 0x2 = 0x03 := by decide

/-- The table of reads, W = 32. -/
theorem test_reads :
    (List.range 16).map
        (fun n => readReg { vec [] with snap := 0x12345678, result := 0x89ABCDEF, err := true } (BitVec.ofNat 4 n))
      = [0x00, 0x01, 0x03, 0x00, 0xEF, 0xCD, 0xAB, 0x89, 0x78, 0x56, 0x34, 0x12, 0x00, 0x00, 0x00, 0x00] := by
  decide

/-- The reads with W = 16, and CFG with W = 24 and W = 8. -/
theorem test_reads_narrow :
    (List.range 12).map
        (fun n => readReg
          { vec [] with cfg := Config.exampleAt .w16, snap := 0x1234, result := 0xABCD } (BitVec.ofNat 4 n))
      = [0x00, 0x00, 0x01, 0x00, 0xCD, 0xAB, 0x00, 0x00, 0x34, 0x12, 0x00, 0x00] ∧
    cfgByte (Config.exampleAt .w24) = 0x02 ∧ cfgByte (Config.exampleAt .w8) = 0x00 := by decide

theorem test_read_answers : answerAfter { vec [.read 0x5] with result := 0x89ABCDEF } = some 0xCD := by decide

/-- B1-B3: ERR is cleared by bit 0 only and cannot be set. -/
theorem test_write_status :
    blockAfter { vec [.write 1 0x01] with err := true } = some (0x10, 0x3E8, 0xDEADBEEF, false) ∧
    blockAfter { vec [.write 1 0xFE] with err := true } = some (0x10, 0x3E8, 0xDEADBEEF, true) ∧
    blockAfter (vec [.write 1 0xFF]) = some (0x10, 0x3E8, 0xDEADBEEF, false) := by decide

/-- B4-B6: writes to read-only and reserved offsets are ignored. -/
theorem test_write_ignored :
    [(0x4, 0x00), (0xB, 0xFF), (0x2, 0x00), (0x3, 0x55), (0xF, 0x55)].map
        (fun p => blockAfter (vec [.write p.1 p.2]))
      = List.replicate 5 (some (0x10, 0x3E8, 0xDEADBEEF, false)) := by decide

/-! ## The platform and the text of host programs -/

/-- The edges of the window (20_memory.md R40). -/
theorem test_window_edges :
    [31, 32, 47, 48].map (offsetOf 32) = [none, some 0x0, some 0xF, none] := by decide

/-- The program P1 of 95_test_vectors.md as text gives its trace words. -/
theorem test_assemble_p1 :
    (assemble "RESET\nTICK 3 ; three ticks\n\nWR CMD, NOW.MS\nRD32 RESULT\nRD STATUS").map (List.map encodeTrace)
      = some [0xC000, 0x8002, 0x4005, 0x0400, 0x0500, 0x0600, 0x0700, 0x0100] := by decide

/-- Lines of P4 (95_test_vectors.md), with the pseudo-instruction CLRERR and bare offsets. -/
theorem test_assemble_p4_lines :
    (assemble "NOW.US\nWR CMD, 0x07\nCLRERR\nWR RESULT0, 0xAA\nRD 0x3").map (List.map encodeTrace)
      = some [0x4006, 0x4007, 0x4101, 0x44AA, 0x0300] ∧
    assemble "WR CMD NOW.MS" = none ∧ assemble "WR CMD, 0x100" = none ∧ assemble "RD 16" = none := by decide

/-! ## Witnesses: for every statement with hypotheses, a state and operands that meet them together -/

theorem witness_StepRunsTheDecodedCommand :
    (vec [.write 0 0x05]).pending = .write 0 0x05 :: [] ∧ decode 0x05 = .ok .nowMs := by decide

theorem witness_NoAutonomousStep : (vec []).pending = [] := rfl

theorem witness_EveryStepKeepsTheInvariant :
    ∃ t, (vec [.write 0 0x05]).Inv ∧ step (vec [.write 0 0x05]) = .next t := ⟨_, by decide, rfl⟩

theorem witness_ParametersNeverChange : ∃ t, steps 2 (vec [.tick, .write 0 0x05]) = .next t := ⟨_, rfl⟩

theorem witness_CounterHasTwoWriters :
    ∃ t, step (vec [.tick]) = .next t ∧ t.cnt ≠ (vec [.tick]).cnt := ⟨_, rfl, by decide⟩

theorem witness_SnapshotWriters :
    ∃ t, step (vec [.write 0 0x04]) = .next t ∧ t.snap ≠ (vec [.write 0 0x04]).snap := ⟨_, rfl, by decide⟩

theorem witness_ResultWriters :
    ∃ t, step (vec [.write 0 0x00]) = .next t ∧ t.result ≠ (vec [.write 0 0x00]).result := ⟨_, rfl, by decide⟩

theorem witness_OnlyReservedCommandsSetErr :
    ∃ t, step (vec [.write 0 0x07]) = .next t ∧ (vec [.write 0 0x07]).err = false ∧ t.err = true :=
  ⟨_, rfl, rfl, rfl⟩

/-- First clause: ticks, reads, commands legal and reserved, and a write of 0 to bit 0 between. -/
theorem witness_ErrIsSticky_stays :
    ∃ (s : State) (es rest : List Event), s.pending = es ++ rest ∧ s.err = true ∧
      (∀ e ∈ es, isErrClear e = false ∧ e ≠ .reset) ∧ es.length = 5 :=
  ⟨{ vec [.tick, .read 0x1, .write 0 0x05, .write 0 0xFF, .write 1 0xFE] with err := true },
    [.tick, .read 0x1, .write 0 0x05, .write 0 0xFF, .write 1 0xFE], [], rfl, rfl, by decide, rfl⟩

/-- Second clause: the two events that clear ERR. -/
theorem witness_ErrIsSticky_clears :
    (vec [.write 1 0x01]).pending = .write 1 0x01 :: [] ∧ isErrClear (.write 1 0x01) = true ∧
    (vec [.reset]).pending = .reset :: [] := by decide

/-- Both clauses: the second at the boundary `2^W - 1`. -/
theorem witness_TickStep :
    ∃ s : State, s.pending = .tick :: [] ∧ s.cnt.toNat = 2 ^ s.cfg.width.bits - 1 :=
  ⟨{ vec [.tick] with cnt := 0xFFFFFFFF }, rfl, by decide⟩

theorem witness_ResetStep : (vec [.reset, .tick]).pending = .reset :: [.tick] := rfl

theorem witness_PowerUpIsTheResetState :
    ∃ t, (vec [.reset]).pending = .reset :: [] ∧ step (vec [.reset]) = .next t := ⟨_, rfl, rfl⟩

theorem witness_EveryTickIsCounted :
    ∃ (s : State) (es rest : List Event), s.Inv ∧ s.pending = es ++ rest ∧ (∀ e ∈ es, e ≠ .reset) ∧
      tickCount es = 2 :=
  ⟨vec [.tick, .write 0 0x04, .tick, .reset], [.tick, .write 0 0x04, .tick], [.reset],
    by decide, rfl, by decide, by decide⟩

theorem witness_TicksAfterReset :
    (vec [.reset, .tick, .tick, .read 0x0]).pending = .reset :: (List.replicate 2 .tick ++ [.read 0x0]) := rfl

theorem witness_SnapshotsMeasureTicks :
    ∃ (s : State) (gap rest : List Event),
      s.pending = .write 0 0x04 :: (gap ++ .write 0 0x06 :: rest) ∧ isCapture (.write 0 0x04) = true ∧
      isCapture (.write 0 0x06) = true ∧ (∀ e ∈ gap, e ≠ .reset) ∧ tickCount gap = 2 :=
  ⟨vec [.write 0 0x04, .tick, .read 0x4, .tick, .write 0 0x06], [.tick, .read 0x4, .tick], [],
    rfl, rfl, rfl, by decide, by decide⟩

/-- With the counter at its wrap. -/
theorem witness_CounterOnlyDropsAtTheWrap :
    ∃ s t : State, s.Inv ∧ step s = .next t ∧ (∀ rest, s.pending ≠ .reset :: rest) ∧
      s.cnt.toNat = 2 ^ s.cfg.width.bits - 1 :=
  ⟨{ vec [.tick] with cnt := 0xFFFFFFFF }, _, by decide, rfl, by simp [vec], by decide⟩

theorem witness_HeldResetLeavesTheResetState :
    ∃ s : State, s.pending = heldReset [.tick, .read 0x4, .write 0 0x05] ++ [.tick] ∧
      heldReset [.tick, .read 0x4, .write 0 0x05] = [.reset, .read 0x4] :=
  ⟨vec [.reset, .read 0x4, .tick], by decide, by decide⟩

theorem witness_HostRead : (vec [.read 0xF]).pending = .read 0xF :: [] := rfl

theorem witness_ReadsHaveNoSideEffect :
    (vec [.read 0x0, .read 0xF, .tick]).pending = [(0x0 : Offset), 0xF].map .read ++ [.tick] := rfl

/-- The three clauses, at the offsets where they meet. -/
theorem witness_HostWrite :
    (vec [.write 0x0 0xFF]).pending = .write 0x0 0xFF :: [] ∧
    (vec [.write 0x1 0xFF]).pending = .write 0x1 0xFF :: [] ∧
    (vec [.write 0x2 0xFF]).pending = .write 0x2 0xFF :: [] ∧ (0x2 : Offset) ≠ 0x0 ∧ (0x2 : Offset) ≠ 0x1 := by
  decide

/-- At the lowest byte above W. -/
theorem witness_BytesAboveTheWidthReadZero :
    ∃ s : State, s.Inv ∧ s.cfg.width.bits ≤ 8 * 2 :=
  ⟨{ vec [] with cfg := Config.exampleAt .w16, result := 0xABCD }, by decide, by decide⟩

/-- Both clauses, at the edges of the window. -/
theorem witness_WindowDecodesAddresses :
    ∃ s : State, offsetOf s.cfg.base 32 = some 0x0 ∧ offsetOf s.cfg.base 47 = some 0xF ∧ 31 < s.cfg.base ∧
      s.cfg.base + 15 < 48 :=
  ⟨{ vec [] with cfg := { Config.exampleAt .w32 with base := 32 } }, by decide, by decide, by decide, by decide⟩

theorem witness_CounterIsHiddenWithoutACapture :
    ∃ (s : State) (es rest : List Event), s.pending = es ++ rest ∧ (∀ e ∈ es, isCapture e = false) ∧
      es.length = 3 :=
  ⟨vec [.tick, .write 0 0x01, .read 0x4], [.tick, .write 0 0x01, .read 0x4], [], rfl, by decide, rfl⟩

theorem witness_NoResultLatency :
    (vec [.write 0 0x05, .read 0x4]).pending = .write 0 0x05 :: .read 0x4 :: [] := rfl

/-- The clause of reserved bytes (the lowest and the highest) and the clause of legal ones, with S = 0 and 1. -/
theorem witness_CommandWriteFollowsThePseudocode :
    ((vec [.write 0 0x03]).pending = .write 0 0x03 :: [] ∧ (0x03 : Byte).toNat % 4 = 3) ∧
    ((vec [.write 0 0xFF]).pending = .write 0 0xFF :: [] ∧ (0xFF : Byte).toNat / 8 ≠ 0) ∧
    ((vec [.write 0 0x02]).pending = .write 0 0x02 :: [] ∧ (0x02 : Byte).toNat / 8 = 0 ∧
      (0x02 : Byte).toNat % 4 ≠ 3 ∧ (0x02 : Byte).toNat / 4 % 2 = 0) ∧
    ((vec [.write 0 0x06]).pending = .write 0 0x06 :: [] ∧ (0x06 : Byte).toNat / 8 = 0 ∧
      (0x06 : Byte).toNat % 4 ≠ 3 ∧ (0x06 : Byte).toNat / 4 % 2 = 1) := by decide

theorem witness_ReservedCommandOnlySetsErr :
    (vec [.write 0 0x08]).pending = .write 0 0x08 :: [] ∧
    ((0x08 : Byte).toNat / 8 ≠ 0 ∨ (0x08 : Byte).toNat % 4 = 3) := by decide

theorem witness_EvalCommandsFrame :
    ∃ t, Instr.evalMs ∈ [Instr.evalRaw, .evalMs, .evalUs] ∧ exec .evalMs (vec []) = .next t := ⟨_, by decide, rfl⟩

theorem witness_CaptureCommandsFrame :
    ∃ t, Instr.nowUs ∈ [Instr.snapRaw, .nowMs, .nowUs] ∧ exec .nowUs (vec []) = .next t := ⟨_, by decide, rfl⟩

theorem witness_NegativeSumClampsToZero : evalSum 0x00000001FFFF0000 (0 : Word).toNat < 0 := by decide

theorem witness_TermOrderIsIrrelevant : [13, 5, 10, 6].Perm (shifts Config.exampleFMs) := by decide

/-- Both clauses, at the last value before the result wraps. -/
theorem witness_EvalIsMonotoneBelowTheWrap :
    (2097179000 : Word).toNat ≤ (2097179001 : Word).toNat ∧
    clampSum (evalSum Config.exampleFMs (2097179001 : Word).toNat) < 2 ^ Width.w32.bits := by decide

/-- With shift terms, and with none. -/
theorem witness_FloorTermsUnderReport :
    (∃ e : ℚ, e = ((1000 : Nat) : ℚ) * ((coef Config.exampleFMs : ℚ)
        + ((shifts Config.exampleFMs).map fun k => (1 / 2 : ℚ) ^ k).sum)
        - ((evalSum Config.exampleFMs 1000 - corr Config.exampleFMs : Int) : ℚ)) ∧
    (shifts Config.exampleFMs).length ≠ 0 ∧ (shifts Config.exampleFUs).length = 0 :=
  ⟨⟨_, rfl⟩, by decide, by decide⟩

/-- The first clause at the largest COEF it admits, the second at a shift equal to W and the largest value. -/
theorem witness_EquivalentDescriptors :
    ((0xFFFE : BitVec 16).toNat < 65535 ∧ (0x00000001 : BitVec 32).toNat % 2 = 1) ∧
    ((0xFF : Word).toNat < 2 ^ Width.w8.bits ∧
      (0x00000104 : BitVec 32).toNat % 2 ^ Width.w8.bits = (0x00000004 : BitVec 32).toNat % 2 ^ Width.w8.bits) := by
  decide

theorem witness_QuietEventsKeepTheLatches :
    ∃ (s : State) (es rest : List Event), s.pending = es ++ rest ∧ (∀ e ∈ es, isQuiet e = true) ∧ es.length = 3 :=
  ⟨vec [.tick, .read 0x4, .write 1 0x01], [.tick, .read 0x4, .write 1 0x01], [], rfl, by decide, rfl⟩

/-- The events of `witness_ConversionReadsBackExactly`: a command and the four reads of RESULT, with ticks, a read
and a write to STATUS between them. -/
def readBack (b : Byte) : List Event :=
  .write 0 b :: ([.tick] ++ .read 0x4 :: ([.read 0x8, .write 1 0x01] ++ .read 0x5 :: ([] ++ .read 0x6 ::
    ([.tick] ++ .read 0x7 :: []))))

/-- The events fall under the statement's form for each of the three commands, NOW.MS, NOW.US and SNAP.RAW, with
the conversions of K5, K6, K7 (95_test_vectors.md 2.3). -/
theorem witness_ConversionReadsBackExactly :
    (∀ b, (vec (readBack b)).pending = .write 0 b :: ([.tick] ++ .read 0x4 :: ([.read 0x8, .write 1 0x01]
      ++ .read 0x5 :: ([] ++ .read 0x6 :: ([.tick] ++ .read 0x7 :: []))))) ∧
    (∀ e ∈ [Event.tick] ++ [.read 0x8, .write 1 0x01] ++ [] ++ [.tick], isQuiet e = true) ∧
    (0x20 : Word) = eval (vec (readBack 0x05)).cfg.width (vec (readBack 0x05)).cfg.fMs (vec (readBack 0x05)).cnt ∧
    (0x8000 : Word) = eval (vec (readBack 0x06)).cfg.width (vec (readBack 0x06)).cfg.fUs (vec (readBack 0x06)).cnt ∧
    (0x10 : Word) = (vec (readBack 0x04)).cnt :=
  ⟨fun _ => rfl, by decide, by decide, by decide, by decide⟩

/-- Both clauses. -/
theorem witness_OneSnapshotTwoUnits :
    (vec [.write 0 0x06, .tick, .write 0 0x01]).pending = .write 0 0x06 :: ([.tick] ++ .write 0 0x01 :: []) ∧
    (∀ e ∈ [Event.tick], isQuiet e = true) ∧
    (vec [.write 0 0x04, .write 0 0x01]).pending = .write 0 0x04 :: .write 0 0x01 :: [] ∧
    isCapture (.write 0 0x04) = true := by decide

/-- The race Q2 (95_test_vectors.md 2.6), in both orders: the count is at its wrap. -/
theorem witness_TickCommandRace :
    ∃ s : State, isCapture (.write 0 0x05) = true ∧
      (0 : Word) = BitVec.ofNat 32 ((s.cnt.toNat + 1) % 2 ^ s.cfg.width.bits) ∧
      [Event.tick, .write 0 0x05] ∈ simultaneousOrders .tick (.write 0 0x05) ∧
      [Event.write 0 0x05, .tick] ∈ simultaneousOrders .tick (.write 0 0x05) :=
  ⟨{ vec [] with cnt := 0xFFFFFFFF }, by decide, by decide, by decide, by decide⟩

theorem witness_ResultWrapHazard : (2097179001 : Word).toNat ≤ (2097179002 : Word).toNat := by decide

end Sys2Proof.Tests
end

section
/-! PROOFS of the scope (00_scope.md): the scaler's 50-bit accumulator is exact (R9), the largest sum, and the idle
step (R2). -/

namespace Sys2Proof.Machine

/-! ## The 50-bit accumulator is the exact sum modulo `2^50`

`BitVec.ofInt 50` respects sums and products, so the accumulator follows the exact loop from every start and with
no bound on the operands; the bounds only matter when it is read back as an integer. -/

/-- A shift term, widened to 50 bits, is the floored term of the exact loop. -/
theorem setWidth_shiftRight_eq_ofInt (v : Word) (k : Nat) :
    (v >>> k).setWidth 50 = BitVec.ofInt 50 ((v.toNat >>> k : Nat) : Int) := by
  rw [BitVec.ofInt_natCast, ← BitVec.toNat_ushiftRight, BitVec.ofNat_toNat]

/-- The multiply term in 50 bits is the exact product modulo `2^50`. -/
theorem coefTerm50_eq_ofInt (F : Descriptor) (v : Word) :
    (coefField F).setWidth 50 * v.setWidth 50 = BitVec.ofInt 50 ((coef F * v.toNat : Nat) : Int) := by
  rw [BitVec.ofInt_natCast, BitVec.ofNat_mul, coef, BitVec.ofNat_toNat, BitVec.ofNat_toNat]

/-- The correction, sign-extended to 50 bits, is the correction modulo `2^50`. -/
theorem signExtend_corrField_eq_ofInt (F : Descriptor) :
    (corrField F).signExtend 50 = BitVec.ofInt 50 (corr F) := rfl

/-- The 50-bit loop keeps holding the exact loop's value modulo `2^50`. -/
theorem addShiftTerms50_ofInt (F : Descriptor) (v : Word) (ks : List Nat) (acc : Int) :
    addShiftTerms50 F v ks (BitVec.ofInt 50 acc) = BitVec.ofInt 50 (addShiftTerms F v.toNat ks acc) := by
  induction ks generalizing acc with
  | nil => rfl
  | cons k ks ih =>
    rw [addShiftTerms50, addShiftTerms]
    by_cases h : hasShift F k = true
    · rw [if_pos h, if_pos h, setWidth_shiftRight_eq_ofInt, ← BitVec.ofInt_add, ih]
    · rw [if_neg h, if_neg h, ih]

/-- The accumulator after the correction is the exact sum modulo `2^50`. -/
theorem accumulator50_eq_ofInt (F : Descriptor) (v : Word) :
    accumulator50 F v = BitVec.ofInt 50 (evalSum F v.toNat) := by
  rw [accumulator50, coefTerm50_eq_ofInt, addShiftTerms50_ofInt, signExtend_corrField_eq_ofInt,
    ← BitVec.ofInt_add, evalSum]

/-- A number in the range of 50-bit two's complement survives the accumulator. -/
theorem toInt_ofInt50 {a : Int} (hlo : -2 ^ 49 ≤ a) (hhi : a < 2 ^ 49) : (BitVec.ofInt 50 a).toInt = a :=
  BitVec.toInt_ofInt_eq_self (by decide) hlo hhi

/-! ## How large the sum gets (00_scope.md R9) -/

/-- The terms of the first `n` shift amounts come to at most `2^33 - 34`, the sum of all 32 of them at
`v = 2^32 - 1`: the floors only grow with `v`, and leaving terms out only lowers the sum. -/
theorem shiftTerms_sum_le (F : Descriptor) (v : Word) {n : Nat} (hn : n ≤ 32) :
    (((List.range n).filter (hasShift F)).map fun k => v.toNat / 2 ^ k).sum ≤ 2 ^ 33 - 34 := by
  have hv : v.toNat ≤ 2 ^ 32 - 1 := Nat.le_sub_one_of_lt v.isLt
  have hsub : ((List.range n).filter (hasShift F)).Sublist (List.range 32) :=
    List.filter_sublist.trans (List.range_sublist.mpr hn)
  calc (((List.range n).filter (hasShift F)).map fun k => v.toNat / 2 ^ k).sum
      ≤ ((List.range 32).map fun k => v.toNat / 2 ^ k).sum :=
        (hsub.map _).sum_le_sum fun _ _ => Nat.zero_le _
    _ ≤ ((List.range 32).map fun k => (2 ^ 32 - 1) / 2 ^ k).sum :=
        List.sum_le_sum fun k _ => Nat.div_le_div_right hv
    _ = 2 ^ 33 - 34 := by decide

/-- The multiply term is at most the product of the largest COEF and the largest value. -/
theorem coefTerm_le (F : Descriptor) (v : Word) : coef F * v.toNat ≤ (2 ^ 16 - 1) * (2 ^ 32 - 1) :=
  Nat.mul_le_mul (Nat.le_sub_one_of_lt (coef_lt F)) (Nat.le_sub_one_of_lt v.isLt)

/-- Before the correction, after the terms of the first `n` shift amounts, the sum is non-negative and at most
281479271612383. -/
theorem addShiftTerms_range_bounds (F : Descriptor) (v : Word) {n : Nat} (hn : n ≤ 32) :
    0 ≤ addShiftTerms F v.toNat (List.range n) ((coef F * v.toNat : Nat) : Int) ∧
    addShiftTerms F v.toNat (List.range n) ((coef F * v.toNat : Nat) : Int) ≤ 281479271612383 := by
  have hcoef := coefTerm_le F v
  have hshift := shiftTerms_sum_le F v hn
  rw [addShiftTerms_eq]
  constructor <;> omega

/-- The sum after the correction: the least is a correction alone, the greatest has the greatest correction. -/
theorem evalSum_bounds (F : Descriptor) (v : Word) :
    -32768 ≤ evalSum F v.toNat ∧ evalSum F v.toNat ≤ 281479271645150 := by
  obtain ⟨hlo, hhi⟩ := addShiftTerms_range_bounds F v le_rfl
  obtain ⟨hcorrLo, hcorrHi⟩ := corr_range F
  unfold evalSum
  constructor <;> omega

/-- The bound is reached: every shift present, COEF of all ones, CORR = 32767, at the largest value. -/
theorem evalSum_largest : evalSum 0xFFFFFFFF7FFFFFFF (2 ^ 32 - 1) = 281479271645150 := by decide

/-- Settles O53: the accumulator is the exact sum modulo `2^50`, and the exact sum never leaves the 50-bit
range. -/
theorem fiftyBitAccumulatorIsExact : Obligations.FiftyBitAccumulatorIsExact := by
  refine ⟨fun F v => ?_, evalSum_largest⟩
  obtain ⟨hlo, hhi⟩ := evalSum_bounds F v
  refine ⟨fun n hn => ?_, ?_, hlo, by omega, hhi⟩
  · obtain ⟨hsumLo, hsumHi⟩ := addShiftTerms_range_bounds F v hn
    rw [coefTerm50_eq_ofInt, addShiftTerms50_ofInt]
    exact toInt_ofInt50 (by omega) (by omega)
  · rw [accumulator50_eq_ofInt]
    exact toInt_ofInt50 (by omega) (by omega)

/-- Refutes O54: the descriptor with CORR = 32767 and all other bits set gives 281479271645150 at
`v = 2^32 - 1`, which is 32768 more than the note's largest sum. -/
theorem not_largestSumAsNoted : ¬ Obligations.LargestSumAsNoted := by
  rintro ⟨-, hmax⟩
  have hle : evalSum 0xFFFFFFFF7FFFFFFF (2 ^ 32 - 1) ≤ 281479271612382 := hmax 0xFFFFFFFF7FFFFFFF 0xFFFFFFFF
  rw [evalSum_largest] at hle
  omega

/-! ## The idle step (00_scope.md R2, log entry 5) -/

/-- The companion of `step_of_pending`: with no event to come the step answers the same state. -/
theorem step_of_pending_nil {s : State} (h : s.pending = []) : step s = .next s := by
  simp only [step, performNext, h]

/-- Settles O10. -/
theorem noAutonomousStep : Obligations.NoAutonomousStep := fun _ h => step_of_pending_nil h

end Sys2Proof.Machine
end

section
/-! PROOFS of the state (10_state.md): the invariant holds at reset and every step keeps it (R21-R23), no run
changes the parameters (R30), and who writes the two latches (R22, R23). -/

namespace Sys2Proof.Machine

/-! ## The invariant, operation by operation

Each state operation keeps the invariant; the operations that write only `STATUS.ERR`, the pending events or the
answered bytes leave every field it speaks of, so the invariant of their results is that of `s`, unfolded. -/

/-- A TICK keeps the counter in range by reducing it modulo `2^W` (40_tick_counter.md R80). -/
theorem tickCounter_inv {s : State} (h : s.Inv) : (tickCounter s).Inv :=
  ⟨toNat_narrow_lt _ _, h.2⟩

/-- The registers of the reset block are 0, which is in range at every width. -/
theorem resetBlock_inv {s : State} (h : s.Inv) : (resetBlock s).Inv := by
  obtain ⟨-, -, -, hwf⟩ := h
  exact ⟨two_pow_bits_pos _, two_pow_bits_pos _, two_pow_bits_pos _, hwf⟩

/-- The captured value is the counter's, which is in range. -/
theorem capture_inv {s : State} (h : s.Inv) : (capture s).Inv := by
  obtain ⟨hcnt, -, hrest⟩ := h
  exact ⟨hcnt, hcnt, hrest⟩

/-- The raw result is the snapshot's value, which is in range. -/
theorem convertRaw_inv {s : State} (h : s.Inv) : (convertRaw s).Inv := by
  obtain ⟨hcnt, hsnap, -, hwf⟩ := h
  exact ⟨hcnt, hsnap, hsnap, hwf⟩

/-- The converted result is in range for every descriptor, by the truncation of `Eval` (41_scaler.md R92). -/
theorem convertBy_inv (F : Descriptor) {s : State} (h : s.Inv) : (convertBy F s).Inv := by
  obtain ⟨hcnt, hsnap, -, hwf⟩ := h
  exact ⟨hcnt, hsnap, toNat_eval_lt _ _ _, hwf⟩

theorem recordError_inv {s : State} (h : s.Inv) : (recordError s).Inv := h

theorem driveRead_inv (off : Offset) {s : State} (h : s.Inv) : (driveRead off s).Inv := h

theorem withPending_inv (es : List Event) {s : State} (h : s.Inv) : (withPending es s).Inv := h

theorem writeStatus_inv (b : Byte) {s : State} (h : s.Inv) : (writeStatus b s).Inv := by
  simpa only [State.Inv, writeStatus_cfg, writeStatus_cnt, writeStatus_snap, writeStatus_result] using h

/-- Each command is a conversion, after a capture where S = 1. -/
theorem afterCommand_inv (i : Instr) {s : State} (h : s.Inv) : (afterCommand i s).Inv := by
  cases i with
  | evalRaw => exact convertRaw_inv h
  | evalMs => exact convertBy_inv _ h
  | evalUs => exact convertBy_inv _ h
  | snapRaw => exact convertRaw_inv (capture_inv h)
  | nowMs => exact convertBy_inv _ (capture_inv h)
  | nowUs => exact convertBy_inv _ (capture_inv h)

theorem afterWrite_inv (off : Offset) (b : Byte) {s : State} (h : s.Inv) : (afterWrite off b s).Inv := by
  obtain ⟨-, -, ht⟩ | ⟨-, ht⟩ | ⟨-, -, ht⟩ | ⟨-, i, -, ht⟩ := afterWrite_cases off b s <;> rw [ht]
  · exact h
  · exact writeStatus_inv b h
  · exact recordError_inv h
  · exact afterCommand_inv i h

theorem afterEvent_inv (e : Event) {s : State} (h : s.Inv) : (afterEvent e s).Inv := by
  cases e with
  | tick => exact tickCounter_inv h
  | reset => exact resetBlock_inv h
  | read off => exact driveRead_inv off h
  | write off b => exact afterWrite_inv off b h

/-- Settles O12: the step performs one event, or none, and every event keeps the invariant. -/
theorem everyStepKeepsTheInvariant : Obligations.EveryStepKeepsTheInvariant := by
  intro s t hinv hstep
  obtain ⟨-, rfl⟩ | ⟨e, rest, -, rfl⟩ := step_cases hstep
  · exact hinv
  · exact afterEvent_inv e (withPending_inv rest hinv)

/-- `BASE` of this hardware is 16 times a number (00_scope.md R7), whatever that number is. -/
theorem built_wf : Config.built.wf = true := by
  simp only [Config.wf, Config.built, Nat.mul_mod_right, BEq.rfl]

/-- Settles O11. -/
theorem resetMeetsTheInvariant : Obligations.ResetMeetsTheInvariant :=
  ⟨two_pow_bits_pos _, two_pow_bits_pos _, two_pow_bits_pos _, built_wf⟩

/-! ## Runs, and the parameters (10_state.md R30) -/

/-- The inversion of a run's first step. -/
theorem steps_succ_cases {k : Nat} {s t : State} (h : steps (k + 1) s = .next t) :
    ∃ u, step s = .next u ∧ steps k u = .next t := by
  simp only [steps] at h
  cases hs : step s with
  | next u => rw [hs] at h; exact ⟨u, rfl, h⟩
  | fault r => rw [hs] at h; cases h
  | refused r => rw [hs] at h; cases h

/-- What every step keeps, every run keeps. -/
theorem steps_induction {P : State → Prop} (hstep : ∀ s t, P s → step s = .next t → P t)
    {k : Nat} {s t : State} (hs : P s) (h : steps k s = .next t) : P t := by
  induction k generalizing s with
  | zero => obtain rfl := Host.Outcome.next.inj h; exact hs
  | succ k ih =>
    obtain ⟨u, hu, hut⟩ := steps_succ_cases h
    exact ih (hstep s u hs hu) hut

/-- The parameters after a step. -/
theorem step_cfg {s t : State} (h : step s = .next t) : t.cfg = s.cfg := by
  obtain ⟨-, rfl⟩ | ⟨e, rest, -, rfl⟩ := step_cases h
  · rfl
  · rw [afterEvent_cfg, withPending_cfg]

/-- Settles O13, by induction on the run. -/
theorem parametersNeverChange : Obligations.ParametersNeverChange := by
  intro s t k h
  exact steps_induction (P := fun u => u.cfg = s.cfg) (fun _ _ hu hstep => (step_cfg hstep).trans hu) rfl h

/-! ## The writers of the latches (10_state.md R22, R23) -/

/-- The byte of a legal command has Z = 0 and the command's S and U (30_encoding.md R60-R65). -/
theorem fields_of_decode_ok {b : Byte} {i : Instr} (h : decode b = .ok i) :
    cmdZ b = 0 ∧ BitVec.ofBool (cmdS b) = i.sField ∧ cmdU b = i.uField := by
  unfold decode at h
  split at h
  · cases h
  · rename_i hZ
    have hZ : cmdZ b = 0 := not_not.mp hZ
    split at h <;> cases h <;> rename_i hS hU <;>
      exact ⟨hZ, by rw [hS]; rfl, BitVec.eq_of_toNat_eq hU⟩

/-- A byte is its three fields, appended (30_encoding.md R60). -/
theorem append_cmdFields (b : Byte) : cmdZ b ++ BitVec.ofBool (cmdS b) ++ cmdU b = b := by
  revert b; decide

/-- A byte that decodes to a command is the command's encoding. -/
theorem encode_of_decode_ok {b : Byte} {i : Instr} (h : decode b = .ok i) : encode i = b := by
  obtain ⟨hZ, hS, hU⟩ := fields_of_decode_ok h
  rw [encode, ← hZ, ← hS, ← hU, append_cmdFields]

/-- The commands with S = 1 are the bytes 0x04, 0x05 and 0x06 (30_encoding.md R65). -/
theorem encode_mem_of_sField_eq_one {i : Instr} (h : i.sField = 1) : encode i ∈ [(0x04 : Byte), 0x05, 0x06] := by
  cases i with
  | evalRaw | evalMs | evalUs => cases h
  | snapRaw | nowMs | nowUs => decide

/-- A command captures the counter exactly when S = 1 (30_encoding.md R63). -/
theorem afterCommand_snap (i : Instr) (s : State) :
    (afterCommand i s).snap = if i.sField = 1 then s.cnt else s.snap := by
  cases i <;> rfl

/-- Who can write the latches: an event leaves both, or it is a RESET, or the write of a legal byte to CMD. -/
theorem afterEvent_latches (e : Event) (s : State) :
    ((afterEvent e s).snap = s.snap ∧ (afterEvent e s).result = s.result) ∨ e = .reset ∨
    ∃ b i, e = .write 0 b ∧ decode b = .ok i ∧ afterEvent e s = afterCommand i s := by
  cases e with
  | tick => exact .inl ⟨rfl, rfl⟩
  | reset => exact .inr (.inl rfl)
  | read off => exact .inl ⟨rfl, rfl⟩
  | write off b =>
    rw [afterEvent]
    obtain ⟨-, -, h⟩ | ⟨-, h⟩ | ⟨-, -, h⟩ | ⟨rfl, i, hd, h⟩ := afterWrite_cases off b s
    · exact .inl (by simp only [h, and_self])
    · exact .inl (by simp only [h, writeStatus_snap, writeStatus_result, and_self])
    · exact .inl (by simp only [h, recordError_snap, recordError_result, and_self])
    · exact .inr (.inr ⟨b, i, rfl, hd, h⟩)

/-- The same of a step: it leaves both latches, or it is a RESET step, or it runs a legal command. -/
theorem step_latches {s t : State} (h : step s = .next t) :
    (t.snap = s.snap ∧ t.result = s.result) ∨
    (∃ rest, s.pending = .reset :: rest ∧ t = resetBlock (withPending rest s)) ∨
    ∃ b rest i, s.pending = .write 0 b :: rest ∧ decode b = .ok i ∧ t = afterCommand i (withPending rest s) := by
  obtain ⟨-, rfl⟩ | ⟨e, rest, hp, rfl⟩ := step_cases h
  · exact .inl ⟨rfl, rfl⟩
  · obtain hkeep | rfl | ⟨b, i, rfl, hd, ht⟩ := afterEvent_latches e (withPending rest s)
    · exact .inl hkeep
    · exact .inr (.inl ⟨rest, hp, rfl⟩)
    · exact .inr (.inr ⟨b, rest, i, hp, hd, ht⟩)

/-- Settles O15: a command that changes SNAP has S = 1, so its byte is one of the three and SNAP is the counter. -/
theorem snapshotWriters : Obligations.SnapshotWriters := by
  intro s t hstep hne
  obtain ⟨hsnap, -⟩ | ⟨rest, hp, rfl⟩ | ⟨b, rest, i, hp, hd, rfl⟩ := step_latches hstep
  · exact absurd hsnap hne
  · exact .inr ⟨rest, hp, rfl⟩
  · rw [afterCommand_snap] at hne ⊢
    by_cases hS : i.sField = 1
    · exact .inl ⟨b, rest, hp, encode_of_decode_ok hd ▸ encode_mem_of_sField_eq_one hS, if_pos hS⟩
    · exact absurd (if_neg hS) hne

/-- Settles O16. -/
theorem resultWriters : Obligations.ResultWriters := by
  intro s t hstep hne
  obtain ⟨-, hresult⟩ | ⟨rest, hp, -⟩ | ⟨b, rest, i, hp, hd, -⟩ := step_latches hstep
  · exact absurd hresult hne
  · exact .inr ⟨rest, hp⟩
  · exact .inl ⟨b, rest, i, hp, hd⟩

end Sys2Proof.Machine
end

section
/-! PROOFS of the register window (20_memory.md): the platform's address decode (R40), the bytes of the latches
(R42, R43), the host's reads and writes (R44-R46), the command write (R54), and what leaves the latches alone
(R49). -/

namespace Sys2Proof.Machine

/-! ## The address decode and the delivery of an access (R40) -/

/-- An address decodes exactly when it lies in the 16 bytes of the window, and to its distance from `BASE`. -/
theorem offsetOf_eq_some_iff {base addr : Nat} {off : Offset} :
    offsetOf base addr = some off ↔ base ≤ addr ∧ addr ≤ base + 15 ∧ off.toNat = addr - base := by
  unfold offsetOf
  split
  next hin =>
    have hmod : (addr - base) % 2 ^ 4 = addr - base := Nat.mod_eq_of_lt (by omega)
    rw [Option.some_inj, ← BitVec.toNat_inj, BitVec.toNat_ofNat, hmod]
    omega
  next hout =>
    simp only [reduceCtorEq, false_iff]
    omega

theorem offsetOf_eq_none_iff {base addr : Nat} :
    offsetOf base addr = none ↔ addr < base ∨ base + 15 < addr := by
  simp only [offsetOf, ite_eq_right_iff, reduceCtorEq, imp_false]
  omega

/-- Every offset is the decode of its own address. -/
theorem offsetOf_base_add (base : Nat) (off : Offset) : offsetOf base (base + off.toNat) = some off := by
  have hlt := off.isLt
  exact offsetOf_eq_some_iff.mpr ⟨by omega, by omega, by omega⟩

/-- The host address of an access. -/
def Access.addr : Access → Nat
  | .memRead addr => addr
  | .memWrite addr _ => addr

/-- The block's event for an access that reaches it at a window offset. -/
def Access.eventAt (off : Offset) : Access → Event
  | .memRead _ => .read off
  | .memWrite _ b => .write off b

/-- An access whose address decodes becomes the last pending event. -/
theorem deliver_of_offsetOf_eq_some {a : Access} {s : State} {off : Offset}
    (h : offsetOf s.cfg.base a.addr = some off) :
    deliver a s = .next (withPending (s.pending ++ [a.eventAt off]) s) := by
  cases a with
  | memRead addr => rw [Access.addr] at h; simp only [deliver, h, Access.eventAt]
  | memWrite addr b => rw [Access.addr] at h; simp only [deliver, h, Access.eventAt]

/-- An access whose address does not decode is refused by name (log entry 8). -/
theorem deliver_of_offsetOf_eq_none {a : Access} {s : State} (h : offsetOf s.cfg.base a.addr = none) :
    deliver a s = .refused (.outsideWindow a.addr) := by
  cases a with
  | memRead addr => rw [Access.addr] at h; simp only [deliver, h, Access.addr]
  | memWrite addr b => rw [Access.addr] at h; simp only [deliver, h, Access.addr]

/-- Settles O33. -/
theorem windowDecodesAddresses : Obligations.WindowDecodesAddresses := by
  refine ⟨fun _ _ _ => offsetOf_eq_some_iff, fun s addr b => ⟨fun off hin => ?_, fun hout => ?_⟩⟩
  · exact ⟨deliver_of_offsetOf_eq_some (a := .memRead addr) hin,
      deliver_of_offsetOf_eq_some (a := .memWrite addr b) hin⟩
  · have hnone := offsetOf_eq_none_iff.mpr hout
    exact ⟨deliver_of_offsetOf_eq_none (a := .memRead addr) hnone,
      deliver_of_offsetOf_eq_none (a := .memWrite addr b) hnone⟩

/-! ## What a read answers (R41-R44) -/

/-- Offset `4 + i` is byte `i` of RESULT. -/
theorem readReg_result (s : State) {i : Nat} (hi : i < 4) :
    readReg s (BitVec.ofNat 4 (4 + i)) = byteOf s.result i := by
  interval_cases i <;> rfl

/-- Offset `8 + i` is byte `i` of SNAP. -/
theorem readReg_snap (s : State) {i : Nat} (hi : i < 4) :
    readReg s (BitVec.ofNat 4 (8 + i)) = byteOf s.snap i := by
  interval_cases i <;> rfl

theorem statusByte_eq (s : State) : statusByte s = if s.err then 0x01 else 0x00 := by
  unfold statusByte
  cases s.err <;> rfl

/-- Settles O30: the reads are the four bytes of each latch in ascending order, and those assemble to it. -/
theorem latchesAreLittleEndian : Obligations.LatchesAreLittleEndian :=
  fun s => ⟨assembleBytes_byteOf s.result, assembleBytes_byteOf s.snap⟩

/-- A byte of a W-bit value that holds only bits at or above W is 0 (R43). -/
theorem byteOf_eq_zero_of_width_le {w : Width} {v : Word} {i : Nat} (hv : v.toNat < 2 ^ w.bits)
    (hi : w.bits ≤ 8 * i) : byteOf v i = 0 :=
  byteOf_eq_zero v i (hv.trans_le (Nat.pow_le_pow_right Nat.two_pos hi))

/-- Settles O31: the invariant bounds both latches by `2^W`. -/
theorem bytesAboveTheWidthReadZero : Obligations.BytesAboveTheWidthReadZero := by
  rintro s i ⟨-, hsnap, hresult, -⟩ hi hW
  rw [readReg_result s hi, readReg_snap s hi]
  exact ⟨byteOf_eq_zero_of_width_le hresult hW, byteOf_eq_zero_of_width_le hsnap hW⟩

/-- Settles O27. -/
theorem hostRead : Obligations.HostRead := by
  refine ⟨fun s off => ?_, fun s off rest hp => step_of_pending hp, fun s => ?_⟩
  · exact deliver_of_offsetOf_eq_some (a := .memRead (s.cfg.base + off.toNat)) (offsetOf_base_add _ off)
  · exact ⟨rfl, statusByte_eq s, rfl, fun i hi => readReg_result s hi, fun i hi => readReg_snap s hi,
      rfl, rfl, rfl, rfl, rfl⟩

/-! ## Reads have no side effect (R46) -/

/-- A read depends neither on the bytes answered before it nor on the events to come. -/
theorem readReg_driveRead (off off' : Offset) (s : State) : readReg (driveRead off' s) off = readReg s off :=
  readReg_congr rfl rfl rfl rfl off

/-- Reads, one after the other, are all answered from the state they start in, which stands but for the
answers. -/
theorem afterEvents_reads (offs : List Offset) (s : State) :
    afterEvents (offs.map .read) s = { s with rdata := s.rdata ++ offs.map (readReg s) } := by
  induction offs generalizing s with
  | nil => simp only [List.map_nil, List.append_nil, afterEvents_nil]
  | cons off offs ih =>
    have hsame : readReg (driveRead off s) = readReg s := funext fun o => readReg_driveRead o off s
    rw [List.map_cons, afterEvents_cons, afterEvent, ih, hsame, driveRead_rdata, List.append_assoc]
    rfl

/-- Settles O28. -/
theorem readsHaveNoSideEffect : Obligations.ReadsHaveNoSideEffect := by
  intro s offs rest hp
  have hrun := steps_of_pending _ rest s hp
  rw [List.length_map, afterEvents_reads] at hrun
  exact hrun

/-! ## The host's writes (R45, R54) -/

/-- A write to CMD is `ExecCommand` of the byte, on the state with the event taken. -/
theorem step_of_pending_command {s : State} {b : Byte} {rest : List Event} (h : s.pending = .write 0 b :: rest) :
    step s = execCommand b (withPending rest s) := by
  rw [step_of_pending h, execCommand_eq, afterEvent, afterWrite, if_pos rfl]

theorem execCommand_of_decode_ok {b : Byte} {i : Instr} (h : decode b = .ok i) (s : State) :
    execCommand b s = exec i s := by
  simp only [execCommand, h]

/-- Settles O8. -/
theorem stepRunsTheDecodedCommand : Obligations.StepRunsTheDecodedCommand := by
  intro s b rest i hp hd
  rw [step_of_pending_command hp, execCommand_of_decode_ok hd]

/-- A write to STATUS, with bit 0 of the byte read as its parity (30_encoding.md R71). -/
theorem writeStatus_eq (b : Byte) (s : State) :
    writeStatus b s = { s with err := if b.toNat % 2 = 1 then false else s.err } := by
  have hbit : (b.getLsbD 0 = true) ↔ b.toNat % 2 = 1 := by
    rw [BitVec.getLsbD, Nat.testBit_zero, decide_eq_true_iff]
  simp only [writeStatus, hbit]
  split <;> rfl

/-- A write to an offset other than CMD and STATUS is ignored. -/
theorem afterWrite_of_ne {off : Offset} (h₀ : off ≠ 0) (h₁ : off ≠ 1) (b : Byte) (s : State) :
    afterWrite off b s = s := by
  rw [afterWrite, if_neg h₀, if_neg h₁]

/-- Settles O29. -/
theorem hostWrite : Obligations.HostWrite := by
  refine ⟨fun s off b => ?_, fun s off b rest hp => ⟨?_, ?_, ?_⟩⟩
  · exact deliver_of_offsetOf_eq_some (a := .memWrite (s.cfg.base + off.toNat) b) (offsetOf_base_add _ off)
  · rintro rfl
    exact step_of_pending_command hp
  · rintro rfl
    rw [step_of_pending hp]
    exact congrArg _ (writeStatus_eq b (withPending rest s))
  · rintro ⟨h₀, h₁⟩
    rw [step_of_pending hp, afterEvent, afterWrite_of_ne h₀ h₁]
    rfl

/-! ## Quiet events (R49) -/

/-- A quiet event is neither a write to CMD nor a RESET, so it leaves both latches. -/
theorem afterEvent_latches_of_isQuiet {e : Event} (h : isQuiet e = true) (s : State) :
    (afterEvent e s).snap = s.snap ∧ (afterEvent e s).result = s.result := by
  obtain hkeep | rfl | ⟨b, i, rfl, -, -⟩ := afterEvent_latches e s
  · exact hkeep
  · exact absurd h Bool.false_ne_true
  · exact absurd h Bool.false_ne_true

theorem afterEvents_latches_of_isQuiet {es : List Event} (h : ∀ e ∈ es, isQuiet e = true) (s : State) :
    (afterEvents es s).snap = s.snap ∧ (afterEvents es s).result = s.result := by
  induction es generalizing s with
  | nil => exact ⟨rfl, rfl⟩
  | cons e es ih =>
    obtain ⟨he, hes⟩ := List.forall_mem_cons.mp h
    obtain ⟨hsnap, hresult⟩ := afterEvent_latches_of_isQuiet he s
    obtain ⟨hsnaps, hresults⟩ := ih hes (afterEvent e s)
    exact ⟨hsnaps.trans hsnap, hresults.trans hresult⟩

/-- A host write answers the host nothing. -/
@[simp] theorem afterWrite_rdata (off : Offset) (b : Byte) (s : State) : (afterWrite off b s).rdata = s.rdata := by
  obtain ⟨-, -, h⟩ | ⟨-, h⟩ | ⟨-, -, h⟩ | ⟨-, i, -, h⟩ := afterWrite_cases off b s <;> rw [h]
  · exact writeStatus_rdata b s
  · exact recordError_rdata s
  · obtain ⟨-, -, -, -, hrdata⟩ := afterCommand_fields i s
    exact hrdata

/-- Any events, quiet or not, answer one byte for each read among them. -/
theorem afterEvents_rdata_length (es : List Event) (s : State) :
    (afterEvents es s).rdata.length = s.rdata.length + readCount es := by
  induction es generalizing s with
  | nil => rfl
  | cons e es ih =>
    have hone : (afterEvent e s).rdata.length = s.rdata.length + if isRead e then 1 else 0 := by
      cases e with
      | tick => rfl
      | reset => rfl
      | read off => exact List.length_append
      | write off b => exact congrArg List.length (afterWrite_rdata off b s)
    rw [afterEvents_cons, ih, hone, readCount, readCount, List.countP_cons]
    omega

/-- The offsets 4 to 11 are the bytes of the two latches. -/
theorem exists_latch_offset {off : Offset} (hlo : 4 ≤ off.toNat) (hhi : off.toNat ≤ 11) :
    ∃ i < 4, off = BitVec.ofNat 4 (4 + i) ∨ off = BitVec.ofNat 4 (8 + i) := by
  by_cases h : off.toNat < 8
  · refine ⟨off.toNat - 4, by omega, .inl ?_⟩
    rw [Nat.add_sub_cancel' hlo, BitVec.ofNat_toNat, BitVec.setWidth_eq]
  · refine ⟨off.toNat - 8, by omega, .inr ?_⟩
    rw [Nat.add_sub_cancel' (by omega), BitVec.ofNat_toNat, BitVec.setWidth_eq]

/-- The bytes read from the latches depend on the latches only; unlike in `readReg_congr`, ERR may differ. -/
theorem readReg_congr_of_latches {s t : State} (hsnap : t.snap = s.snap) (hresult : t.result = s.result)
    {off : Offset} (hlo : 4 ≤ off.toNat) (hhi : off.toNat ≤ 11) : readReg t off = readReg s off := by
  obtain ⟨i, hi, rfl | rfl⟩ := exists_latch_offset hlo hhi
  · rw [readReg_result t hi, readReg_result s hi, hresult]
  · rw [readReg_snap t hi, readReg_snap s hi, hsnap]

/-- Settles O55. -/
theorem quietEventsKeepTheLatches : Obligations.QuietEventsKeepTheLatches := by
  intro s es rest hp hquiet
  obtain ⟨hsnap, hresult⟩ := afterEvents_latches_of_isQuiet hquiet s
  exact ⟨withPending rest (afterEvents es s), steps_of_pending es rest s hp, rfl, hsnap, hresult,
    afterEvents_rdata_length es s, fun _ => readReg_congr_of_latches hsnap hresult⟩

end Sys2Proof.Machine
end

section
/-! PROOFS of the encodings (30_encoding.md): the command bytes (R60-R65), the formula descriptor (R66, R67, R69),
CFG (R70), the mnemonics (R72), the events of host programs (R73, R74) and the trace words (R75). -/

namespace Sys2Proof.Machine

/-! ## Command bytes (R60-R65) -/

theorem decode_encode (i : Instr) : decode (encode i) = .ok i := by cases i <;> rfl

/-- Settles O3. -/
theorem decodeAndEncodeAgree : Obligations.DecodeAndEncodeAgree :=
  fun _ i => ⟨encode_of_decode_ok, fun h => h ▸ decode_encode i⟩

theorem encodesLegal (i : Instr) : Laws.EncodesLegal.Statement i := by
  cases i with
  | evalRaw => exact Laws.EncodesLegal.evalRaw
  | evalMs => exact Laws.EncodesLegal.evalMs
  | evalUs => exact Laws.EncodesLegal.evalUs
  | snapRaw => exact Laws.EncodesLegal.snapRaw
  | nowMs => exact Laws.EncodesLegal.nowMs
  | nowUs => exact Laws.EncodesLegal.nowUs

/-- The command map (R65): every S with every U but 3 is some command's. -/
theorem exists_encode_eq_append (s : Bool) {u : BitVec 2} (hu : u ≠ 3) :
    ∃ i, encode i = (0 : BitVec 5) ++ BitVec.ofBool s ++ u := by
  have hunit : u = 0 ∨ u = 1 ∨ u = 2 := by revert u; decide
  cases s with
  | false =>
    obtain rfl | rfl | rfl := hunit
    · exact ⟨.evalRaw, rfl⟩
    · exact ⟨.evalMs, rfl⟩
    · exact ⟨.evalUs, rfl⟩
  | true =>
    obtain rfl | rfl | rfl := hunit
    · exact ⟨.snapRaw, rfl⟩
    · exact ⟨.nowMs, rfl⟩
    · exact ⟨.nowUs, rfl⟩

/-- A byte is some command's encoding exactly when Z is 0 and U is not 3. -/
theorem exists_encode_eq_iff {b : Byte} : (∃ i, encode i = b) ↔ cmdZ b = 0 ∧ cmdU b ≠ 3 := by
  constructor
  · rintro ⟨i, rfl⟩
    obtain ⟨hZ, hU, -⟩ := encodesLegal i
    exact ⟨hZ, hU⟩
  · rintro ⟨hZ, hU⟩
    obtain ⟨i, hi⟩ := exists_encode_eq_append (cmdS b) hU
    exact ⟨i, by rw [hi, ← hZ, append_cmdFields]⟩

/-- Z, bits 7:3, as a number. -/
theorem toNat_cmdZ (b : Byte) : (cmdZ b).toNat = b.toNat / 8 := by
  have h := b.isLt
  rw [cmdZ, BitVec.extractLsb'_toNat, Nat.shiftRight_eq_div_pow]
  omega

/-- U, bits 1:0, as a number. -/
theorem toNat_cmdU (b : Byte) : (cmdU b).toNat = b.toNat % 4 := by
  rw [cmdU, BitVec.extractLsb'_toNat, Nat.shiftRight_zero]

/-- The legal bytes, in the order of the command map (R61). -/
theorem map_encode_all : Instr.all.map encode = [(0x00 : Byte), 0x01, 0x02, 0x04, 0x05, 0x06] := rfl

theorem mem_all (i : Instr) : i ∈ Instr.all := by cases i <;> decide

/-- Settles O1: a legal byte is one that some command encodes to, which the fields and the list each say. -/
theorem legalBytesAreTheSix : Obligations.LegalBytesAreTheSix := by
  intro b
  have hlegal : (∃ i, decode b = .ok i) ↔ ∃ i, encode i = b := exists_congr (decodeAndEncodeAgree b)
  rw [hlegal]
  constructor
  · rw [exists_encode_eq_iff, ne_eq, ← BitVec.toNat_inj, ← BitVec.toNat_inj, toNat_cmdZ, toNat_cmdU]
    rfl
  · rw [← map_encode_all, List.mem_map]
    exact exists_congr fun i => (and_iff_right (mem_all i)).symm

theorem decode_of_cmdZ_ne_zero {b : Byte} (hZ : cmdZ b ≠ 0) : decode b = .error .nonzeroZ := if_pos hZ

theorem decode_of_cmdU_eq_three {b : Byte} (hZ : cmdZ b = 0) (hU : cmdU b = 3) :
    decode b = .error .unitThree := by
  rw [decode, if_neg (not_not.mpr hZ), hU]
  cases cmdS b <;> rfl

/-- Settles O2: the legal bytes are their commands' encodings, and the reserved ones have U = 3 or a nonzero Z. -/
theorem tableBytesDecode : Obligations.TableBytesDecode :=
  ⟨decode_encode .evalRaw, decode_encode .evalMs, decode_encode .evalUs,
    decode_encode .snapRaw, decode_encode .nowMs, decode_encode .nowUs,
    decode_of_cmdU_eq_three rfl rfl, decode_of_cmdU_eq_three rfl rfl,
    decode_of_cmdZ_ne_zero (by decide), decode_of_cmdZ_ne_zero (by decide)⟩

/-! ## Formula descriptors (R66, R67) -/

theorem coefField_append (shm : BitVec 32) (co cf : BitVec 16) : coefField (shm ++ co ++ cf) = cf :=
  BitVec.extractLsb'_append_eq_right

theorem corrField_append (shm : BitVec 32) (co cf : BitVec 16) : corrField (shm ++ co ++ cf) = co := by
  rw [corrField, BitVec.extractLsb'_append_eq_of_le le_rfl]
  exact BitVec.extractLsb'_append_eq_right

theorem shmField_append (shm : BitVec 32) (co cf : BitVec 16) : shmField (shm ++ co ++ cf) = shm := by
  rw [shmField, BitVec.extractLsb'_append_eq_of_le (by decide)]
  exact BitVec.extractLsb'_append_eq_left

@[simp] theorem coef_append (shm : BitVec 32) (co cf : BitVec 16) : coef (shm ++ co ++ cf) = cf.toNat := by
  rw [coef, coefField_append]

@[simp] theorem corr_append (shm : BitVec 32) (co cf : BitVec 16) : corr (shm ++ co ++ cf) = co.toInt := by
  rw [corr, corrField_append]

@[simp] theorem hasShift_append (shm : BitVec 32) (co cf : BitVec 16) (k : Nat) :
    hasShift (shm ++ co ++ cf) k = shm.getLsbD k := by
  rw [hasShift, shmField_append]

/-- The shift list of any descriptor: the set bits of SHM below 32. -/
theorem mem_shifts {F : Descriptor} {k : Nat} : k ∈ shifts F ↔ k < 32 ∧ hasShift F k = true := by
  rw [shifts, List.mem_filter, List.mem_range]

/-- The shift list of any descriptor is strictly increasing, being part of 0..31 in order. -/
theorem pairwise_shifts (F : Descriptor) : (shifts F).Pairwise (· < ·) := List.pairwise_lt_range.filter _

/-- Settles O5. -/
theorem descriptorFieldsAssemble : Obligations.DescriptorFieldsAssemble := by
  intro shm co cf
  refine ⟨coef_append shm co cf, ?_, fun k => ?_, pairwise_shifts _⟩
  · rw [corr_append, BitVec.toInt_eq_toNat_cond]
    split <;> split <;> omega
  · rw [mem_shifts, hasShift_append]
    rfl

/-! ## Equivalent descriptors (R69) -/

/-- The shift terms as a sum over all 32 amounts, 0 for those that are absent. -/
theorem sum_map_shifts (F : Descriptor) (v : Nat) :
    ((shifts F).map fun k => v / 2 ^ k).sum = ∑ k ∈ Finset.range 32, if hasShift F k then v / 2 ^ k else 0 := by
  rw [← Finset.sum_filter, shifts, ← List.sum_toFinset _ (List.nodup_range.filter _), List.toFinset_filter,
    List.toFinset_range]

/-- The exact sum, with the shift terms summed over all 32 amounts. -/
theorem evalSum_eq_sum_range (F : Descriptor) (v : Nat) :
    evalSum F v = ((coef F * v : Nat) : Int)
      + ((∑ k ∈ Finset.range 32, if hasShift F k then v / 2 ^ k else 0 : Nat) : Int) + corr F := by
  rw [evalSum_eq, sum_map_shifts]

/-- Taking 1 from an odd mask clears bit 0 and leaves the others. -/
theorem getLsbD_sub_one_of_odd {shm : BitVec 32} (hodd : shm.toNat % 2 = 1) (k : Nat) :
    (shm - 1).getLsbD k = if k = 0 then false else shm.getLsbD k := by
  have hsub : (shm - 1).toNat = shm.toNat - 1 := by bv_omega
  rw [BitVec.getLsbD, BitVec.getLsbD, hsub]
  cases k with
  | zero => rw [if_pos rfl, Nat.testBit_zero, decide_eq_false_iff_not]; omega
  | succ k =>
    have hhalf : (shm.toNat - 1) / 2 = shm.toNat / 2 := by omega
    rw [if_neg (Nat.succ_ne_zero k), Nat.testBit_succ, Nat.testBit_succ, hhalf]

/-- The term of bit 0 is the value itself, so it can be moved into COEF. -/
theorem evalSum_clear_shift_zero {shm : BitVec 32} {cf : BitVec 16} (co : BitVec 16) (v : Nat)
    (hcf : cf.toNat < 65535) (hodd : shm.toNat % 2 = 1) :
    evalSum (shm ++ co ++ cf) v = evalSum ((shm - 1) ++ co ++ (cf + 1)) v := by
  have hbit : shm.getLsbD 0 = true := by rw [BitVec.getLsbD, Nat.testBit_zero, hodd]; rfl
  have hsucc : (cf + 1).toNat = cf.toNat + 1 := by bv_omega
  simp only [evalSum_eq_sum_range, coef_append, corr_append, hasShift_append, getLsbD_sub_one_of_odd hodd,
    Finset.sum_range_succ' _ 31, hbit, hsucc, Nat.add_one_ne_zero, if_true, if_false, pow_zero, Nat.div_one]
  push_cast
  ring

/-- The bits of two masks that agree modulo `2^n` agree below `n`. -/
theorem getLsbD_eq_of_mod_two_pow_eq {x y : BitVec 32} {n k : Nat} (h : x.toNat % 2 ^ n = y.toNat % 2 ^ n)
    (hk : k < n) : x.getLsbD k = y.getLsbD k := by
  have hbit (v : BitVec 32) : (v.toNat % 2 ^ n).testBit k = v.getLsbD k := by
    rw [Nat.testBit_mod_two_pow, decide_eq_true hk, Bool.true_and, BitVec.getLsbD]
  rw [← hbit x, ← hbit y, h]

/-- A shift amount at or above the width of the value has the term 0, whether it is present or not. -/
theorem evalSum_congr_of_mod_two_pow_eq {shm shm' : BitVec 32} {n v : Nat} (co cf : BitVec 16) (hv : v < 2 ^ n)
    (h : shm.toNat % 2 ^ n = shm'.toNat % 2 ^ n) : evalSum (shm ++ co ++ cf) v = evalSum (shm' ++ co ++ cf) v := by
  have hterm (k : Nat) :
      (if shm.getLsbD k then v / 2 ^ k else 0) = if shm'.getLsbD k then v / 2 ^ k else 0 := by
    by_cases hk : k < n
    · rw [getLsbD_eq_of_mod_two_pow_eq h hk]
    · have hpow : 2 ^ n ≤ 2 ^ k := Nat.pow_le_pow_right Nat.two_pos (Nat.le_of_not_lt hk)
      rw [Nat.div_eq_of_lt (hv.trans_le hpow), ite_self, ite_self]
  simp only [evalSum_eq_sum_range, coef_append, corr_append, hasShift_append, hterm]

/-- Settles O52: `Eval` depends on the descriptor through the exact sum only. -/
theorem equivalentDescriptors : Obligations.EquivalentDescriptors := by
  constructor
  · intro w shm co cf v hcf hodd
    rw [eval, eval, evalSum_clear_shift_zero co v.toNat hcf hodd]
  · intro w shm shm' co cf v hv h
    rw [eval, eval, evalSum_congr_of_mod_two_pow_eq co cf hv h]

/-! ## CFG (R70) -/

/-- The four widths are 8, 16, 24 and 32 bits, and CFG says which: `W/8 - 1` is 0, 1, 2 or 3. -/
theorem toNat_cfgByte (c : Config) :
    (cfgByte c).toNat = c.width.bits / 8 - 1 ∧ (cfgByte c).toNat < 4 ∧
      c.width.bits = 8 * ((cfgByte c).toNat + 1) := by
  unfold cfgByte
  cases c.width <;> decide

/-- Settles O32. -/
theorem cfgGivesTheWidth : Obligations.CfgGivesTheWidth := by
  intro s
  have hread : readReg s 0x2 = cfgByte s.cfg := rfl
  obtain ⟨hvalue, hlt, hwidth⟩ := toNat_cfgByte s.cfg
  rw [hread, Nat.mod_eq_of_lt hlt]
  exact ⟨hvalue, Nat.div_eq_of_lt hlt, hwidth⟩

/-! ## Mnemonics (R72, R73) -/

/-- S, the bits above U in a command's encoding. -/
theorem toNat_encode_div (i : Instr) : (encode i).toNat / 4 = i.sField.toNat := by cases i <;> rfl

theorem toNat_encode_mod (i : Instr) : (encode i).toNat % 4 = i.uField.toNat := by cases i <;> rfl

/-- The mnemonics are distinct, so each names its own command. -/
theorem mnemonicInstr?_mnemonic (i : Instr) : mnemonicInstr? i.mnemonic.toList = some i := by
  cases i <;> decide

/-- Settles O6. -/
theorem mnemonicsFollowTheFields : Obligations.MnemonicsFollowTheFields := by
  intro i
  constructor
  · rw [toNat_encode_div, toNat_encode_mod]
    cases i <;> decide
  · rw [imm8?, mnemonicInstr?_mnemonic]

/-! ## The events of host programs (R73, R74) -/

theorem programEvents_singleton (st : Stmt) : programEvents [st] = stmtEvents st := List.flatMap_singleton ..

theorem programEvents_cons (st : Stmt) (p : List Stmt) :
    programEvents (st :: p) = stmtEvents st ++ programEvents p := List.flatMap_cons ..

/-- `RD32` is four reads at ascending offsets. -/
theorem programEvents_rd32 (off : Offset) :
    programEvents (rd32 off) = [.read off, .read (off + 1), .read (off + 2), .read (off + 3)] := rfl

/-- A command and `RD32 RESULT`, the form of `now_ms` and `now_us`. -/
theorem programEvents_command_rd32 (i : Instr) :
    programEvents (.wr offCmd (encode i) :: rd32 offResult)
      = [.write 0x0 (encode i), .read 0x4, .read 0x5, .read 0x6, .read 0x7] := by
  rw [programEvents_cons, programEvents_rd32]
  rfl

/-- Settles O7. -/
theorem pseudoInstructionsExpand : Obligations.PseudoInstructionsExpand :=
  ⟨fun _ => programEvents_singleton _, programEvents_rd32 offResult, programEvents_rd32 offSnap, programEvents_singleton _,
    programEvents_command_rd32 .nowMs, programEvents_command_rd32 .nowUs,
    fun n => programEvents_singleton (.tick n)⟩

/-! ## Trace words (R75) -/

/-- A trace word is its four fields, appended: K, the two bits that are 0, OFF and DATA. -/
theorem append_traceFields (w : TraceWord) :
    traceK w ++ w.extractLsb' 12 2 ++ traceOff w ++ traceData w = w := by
  rw [traceK, traceOff, traceData,
    BitVec.extractLsb'_append_extractLsb'_eq_extractLsb' (start₂ := 14) (start₁ := 12) rfl,
    BitVec.extractLsb'_append_extractLsb'_eq_extractLsb' (start₂ := 12) (start₁ := 8) rfl,
    BitVec.extractLsb'_append_extractLsb'_eq_extractLsb' (start₂ := 8) (start₁ := 0) rfl]
  exact BitVec.extractLsb'_eq_self

/-- The same with OFF and DATA as the one field of a TICK. -/
theorem append_traceCount (w : TraceWord) : traceK w ++ w.extractLsb' 12 2 ++ traceCount w = w := by
  rw [traceK, traceCount,
    BitVec.extractLsb'_append_extractLsb'_eq_extractLsb' (start₂ := 14) (start₁ := 12) rfl,
    BitVec.extractLsb'_append_extractLsb'_eq_extractLsb' (start₂ := 12) (start₁ := 0) rfl]
  exact BitVec.extractLsb'_eq_self

section Fields
variable (k z : BitVec 2) (o : Offset) (d : Byte) (c : BitVec 12)

theorem traceK_append : traceK (k ++ z ++ o ++ d) = k := by
  rw [traceK, BitVec.extractLsb'_append_eq_of_le (by decide), BitVec.extractLsb'_append_eq_of_le (by decide)]
  exact BitVec.extractLsb'_append_eq_left

theorem extractLsb'_zeros_append : (k ++ z ++ o ++ d : TraceWord).extractLsb' 12 2 = z := by
  rw [BitVec.extractLsb'_append_eq_of_le (by decide), BitVec.extractLsb'_append_eq_of_le (by decide)]
  exact BitVec.extractLsb'_append_eq_right

theorem traceOff_append : traceOff (k ++ z ++ o ++ d) = o := by
  rw [traceOff, BitVec.extractLsb'_append_eq_of_le (by decide)]
  exact BitVec.extractLsb'_append_eq_right

theorem traceData_append : traceData (k ++ z ++ o ++ d) = d := BitVec.extractLsb'_append_eq_right

theorem traceK_append_count : traceK (k ++ z ++ c) = k := by
  rw [traceK, BitVec.extractLsb'_append_eq_of_le (by decide)]
  exact BitVec.extractLsb'_append_eq_left

theorem extractLsb'_zeros_append_count : (k ++ z ++ c : TraceWord).extractLsb' 12 2 = z := by
  rw [BitVec.extractLsb'_append_eq_of_le (by decide)]
  exact BitVec.extractLsb'_append_eq_right

theorem traceCount_append : traceCount (k ++ z ++ c) = c := BitVec.extractLsb'_append_eq_right

end Fields

theorem stmt_wf_tick_iff {n : Nat} : (Stmt.tick n).wf = true ↔ 1 ≤ n ∧ n ≤ 4096 := decide_eq_true_iff

/-- A statement within the format's range is read back from its trace word. -/
theorem decodeTrace_encodeTrace {st : Stmt} (hwf : st.wf = true) : decodeTrace (encodeTrace st) = some st := by
  cases st with
  | rd off =>
    rw [encodeTrace, decodeTrace, extractLsb'_zeros_append, traceK_append, traceOff_append, traceData_append]
    rfl
  | wr off b =>
    rw [encodeTrace, decodeTrace, extractLsb'_zeros_append, traceK_append, traceOff_append, traceData_append]
    rfl
  | tick n =>
    obtain ⟨hpos, hle⟩ := stmt_wf_tick_iff.mp hwf
    have hcount : (BitVec.ofNat 12 (n - 1)).toNat + 1 = n := by rw [BitVec.toNat_ofNat]; omega
    rw [encodeTrace, decodeTrace, extractLsb'_zeros_append_count, traceK_append_count, traceCount_append, hcount]
    rfl
  | reset => rfl

/-- The last value of K is what the reader's default branch reads. -/
theorem eq_three_of_toNat_ne {k : BitVec 2} (h₀ : k.toNat ≠ 0) (h₁ : k.toNat ≠ 1) (h₂ : k.toNat ≠ 2) :
    k = 3 := by
  bv_omega

/-- A word is read only as a statement within the format's range, and as one that encodes to the word: each branch
of the reader fixes the fields that the statement's trace word has as constants. -/
theorem wf_and_encodeTrace_of_decodeTrace {w : TraceWord} {st : Stmt} (h : decodeTrace w = some st) :
    st.wf = true ∧ encodeTrace st = w := by
  have hfields := append_traceFields w
  have hcount := append_traceCount w
  unfold decodeTrace at h
  split at h
  next => cases h
  next hzeros =>
    rw [not_not.mp hzeros] at hfields hcount
    split at h
    next hK =>
      have hK : traceK w = 0 := BitVec.eq_of_toNat_eq hK
      split at h
      next hdata => cases h; rw [hK, hdata] at hfields; exact ⟨rfl, hfields⟩
      next => cases h
    next hK =>
      have hK : traceK w = 1 := BitVec.eq_of_toNat_eq hK
      cases h
      rw [hK] at hfields
      exact ⟨rfl, hfields⟩
    next hK =>
      have hK : traceK w = 2 := BitVec.eq_of_toNat_eq hK
      cases h
      rw [hK] at hcount
      refine ⟨stmt_wf_tick_iff.mpr ⟨Nat.le_add_left 1 _, (traceCount w).isLt⟩, ?_⟩
      rw [encodeTrace, Nat.add_sub_cancel, BitVec.ofNat_toNat, BitVec.setWidth_eq]
      exact hcount
    next hK₀ hK₁ hK₂ =>
      have hK : traceK w = 3 := eq_three_of_toNat_ne hK₀ hK₁ hK₂
      split at h
      next hzero => cases h; rw [hK, hzero] at hcount; exact ⟨rfl, hcount⟩
      next => cases h

/-- Settles O4. -/
theorem traceDecodeAndEncodeAgree : Obligations.TraceDecodeAndEncodeAgree :=
  fun _ _ => ⟨wf_and_encodeTrace_of_decodeTrace, fun ⟨hwf, hencode⟩ => hencode ▸ decodeTrace_encodeTrace hwf⟩

end Sys2Proof.Machine
end

section
/-! PROOFS of the tick counter (40_tick_counter.md): the TICK step (R80, R82), who writes CNT (R81), what the
host can learn of it (R83), and how it counts (R84-R87). -/

namespace Sys2Proof.Machine

/-! ## The TICK step (R80, R82) -/

/-- At its largest value the counter wraps to 0, whatever the width. -/
theorem narrow_succ_of_eq_max {w : Width} {n : Nat} (h : n = 2 ^ w.bits - 1) : narrow w (n + 1) = 0 := by
  have hwrap : n + 1 = 2 ^ w.bits := by
    have hpos := two_pow_bits_pos w
    omega
  rw [narrow, hwrap, Nat.mod_self]
  rfl

/-- Settles O19. -/
theorem tickStep : Obligations.TickStep := by
  intro s rest hp
  refine ⟨step_of_pending hp, fun hmax => ?_⟩
  rw [step_of_pending hp, afterEvent, tickCounter, withPending_cfg, withPending_cnt, narrow_succ_of_eq_max hmax]
  rfl

/-! ## The writers of CNT (R81, R87) -/

/-- Who can write the counter: a TICK counts, a RESET clears, and every other event leaves it. -/
theorem afterEvent_cnt_cases (e : Event) (s : State) :
    (e = .tick ∧ (afterEvent e s).cnt = narrow s.cfg.width (s.cnt.toNat + 1)) ∨
    (e = .reset ∧ (afterEvent e s).cnt = 0) ∨
    (e ≠ .tick ∧ e ≠ .reset ∧ (afterEvent e s).cnt = s.cnt) := by
  cases e with
  | tick => exact .inl ⟨rfl, rfl⟩
  | reset => exact .inr (.inl ⟨rfl, rfl⟩)
  | read off => exact .inr (.inr ⟨nofun, nofun, rfl⟩)
  | write off b => exact .inr (.inr ⟨nofun, nofun, afterWrite_cnt off b s⟩)

/-- The same of a step: it is a TICK step, or a RESET step, or it leaves the counter. -/
theorem step_cnt_cases {s t : State} (h : step s = .next t) :
    (∃ rest, s.pending = .tick :: rest ∧ t.cnt = narrow s.cfg.width (s.cnt.toNat + 1)) ∨
    (∃ rest, s.pending = .reset :: rest) ∨ t.cnt = s.cnt := by
  obtain ⟨-, rfl⟩ | ⟨e, rest, hp, rfl⟩ := step_cases h
  · exact .inr (.inr rfl)
  · obtain ⟨rfl, hcnt⟩ | ⟨rfl, -⟩ | ⟨-, -, hcnt⟩ := afterEvent_cnt_cases e (withPending rest s)
    · exact .inl ⟨rest, hp, hcnt⟩
    · exact .inr (.inl ⟨rest, hp⟩)
    · exact .inr (.inr hcnt)

/-- Settles O14. -/
theorem counterHasTwoWriters : Obligations.CounterHasTwoWriters := by
  intro s t hstep hne
  obtain ⟨rest, hp, -⟩ | ⟨rest, hp⟩ | hcnt := step_cnt_cases hstep
  · exact ⟨rest, .inl hp⟩
  · exact ⟨rest, .inr hp⟩
  · exact absurd hcnt hne

/-- Settles O25: a TICK below `2^W - 1` adds 1, and within the invariant `2^W - 1` is the only other count. -/
theorem counterOnlyDropsAtTheWrap : Obligations.CounterOnlyDropsAtTheWrap := by
  rintro s t ⟨hlt, -⟩ hstep hnoreset
  obtain ⟨rest, -, hcnt⟩ | ⟨rest, hp⟩ | hcnt := step_cnt_cases hstep
  · by_cases hmax : s.cnt.toNat = 2 ^ s.cfg.width.bits - 1
    · exact .inr ⟨hmax, hcnt.trans (narrow_succ_of_eq_max hmax)⟩
    · left
      rw [hcnt, toNat_narrow, Nat.mod_eq_of_lt (by omega)]
      exact Nat.le_succ _
  · exact absurd hp (hnoreset rest)
  · exact .inl (hcnt ▸ le_rfl)

/-! ## Counting (R84-R86)

The count follows the TICKs modulo `2^W` from every state, even one that breaks the invariant; that it is a W-bit
value is a fact of its own, and together they give it exactly. -/

theorem tickCount_cons (e : Event) (es : List Event) :
    tickCount (e :: es) = tickCount es + if e = .tick then 1 else 0 := by
  simp only [tickCount, List.count_cons, beq_iff_eq]

/-- Events with no RESET among them add their TICKs to the count, modulo `2^W`. -/
theorem afterEvents_cnt_modEq {es : List Event} (h : ∀ e ∈ es, e ≠ .reset) (s : State) :
    (afterEvents es s).cnt.toNat ≡ s.cnt.toNat + tickCount es [MOD 2 ^ s.cfg.width.bits] := by
  induction es generalizing s with
  | nil => rfl
  | cons e es ih =>
    obtain ⟨he, hes⟩ := List.forall_mem_cons.mp h
    have hrest := ih hes (afterEvent e s)
    rw [afterEvent_cfg] at hrest
    rw [afterEvents_cons, tickCount_cons]
    obtain ⟨rfl, hcnt⟩ | ⟨rfl, -⟩ | ⟨htick, -, hcnt⟩ := afterEvent_cnt_cases e s
    · have hone : (afterEvent .tick s).cnt.toNat ≡ s.cnt.toNat + 1 [MOD 2 ^ s.cfg.width.bits] := by
        rw [hcnt, toNat_narrow]
        exact Nat.mod_modEq _ _
      rw [if_pos rfl, Nat.add_comm (tickCount es) 1, ← Nat.add_assoc]
      exact hrest.trans (hone.add_right _)
    · exact absurd rfl he
    · rw [if_neg htick, Nat.add_zero, ← hcnt]
      exact hrest

/-- Every event keeps the counter a W-bit value, whatever the latches hold. -/
theorem afterEvent_cnt_lt (e : Event) {s : State} (h : s.cnt.toNat < 2 ^ s.cfg.width.bits) :
    (afterEvent e s).cnt.toNat < 2 ^ s.cfg.width.bits := by
  obtain ⟨-, hcnt⟩ | ⟨-, hcnt⟩ | ⟨-, -, hcnt⟩ := afterEvent_cnt_cases e s <;> rw [hcnt]
  · exact toNat_narrow_lt _ _
  · exact two_pow_bits_pos _
  · exact h

theorem afterEvents_cnt_lt (es : List Event) {s : State} (h : s.cnt.toNat < 2 ^ s.cfg.width.bits) :
    (afterEvents es s).cnt.toNat < 2 ^ s.cfg.width.bits := by
  induction es generalizing s with
  | nil => exact h
  | cons e es ih =>
    have hrest := ih (s := afterEvent e s)
    rw [afterEvent_cfg] at hrest
    exact hrest (afterEvent_cnt_lt e h)

/-- From a W-bit count, events with no RESET among them leave it exactly their TICKs further, modulo `2^W`. -/
theorem afterEvents_toNat_cnt {es : List Event} (h : ∀ e ∈ es, e ≠ .reset) {s : State}
    (hlt : s.cnt.toNat < 2 ^ s.cfg.width.bits) :
    (afterEvents es s).cnt.toNat = (s.cnt.toNat + tickCount es) % 2 ^ s.cfg.width.bits :=
  (Nat.mod_eq_of_lt (afterEvents_cnt_lt es hlt)).symm.trans (afterEvents_cnt_modEq h s)

/-- Settles O22. -/
theorem everyTickIsCounted : Obligations.EveryTickIsCounted := by
  rintro s es rest ⟨hlt, -⟩ hp hnoreset
  exact ⟨withPending rest (afterEvents es s), steps_of_pending es rest s hp, rfl,
    afterEvents_toNat_cnt hnoreset hlt⟩

/-- Settles O23: the RESET makes the count 0, which is a W-bit value from any state. -/
theorem ticksAfterReset : Obligations.TicksAfterReset := by
  intro s n rest hp
  have hrun := steps_of_pending (.reset :: List.replicate n .tick) rest s hp
  have hnoreset : ∀ e ∈ List.replicate n Event.tick, e ≠ .reset := by
    intro e he
    rw [List.eq_of_mem_replicate he]
    exact nofun
  have hcount := afterEvents_toNat_cnt hnoreset (s := resetBlock s) (two_pow_bits_pos _)
  simp only [resetBlock_cnt, BitVec.ofNat_eq_ofNat, BitVec.toNat_zero, Nat.zero_add, tickCount,
    List.count_replicate_self] at hcount
  rw [List.length_cons, List.length_replicate] at hrun
  exact ⟨_, hrun, rfl, hcount⟩

/-! ## Captures (R83, R86) -/

/-- A capture is the write to CMD of a command with S = 1 (30_encoding.md R63). -/
theorem isCapture_iff {e : Event} : isCapture e = true ↔ ∃ i, e = .write 0 (encode i) ∧ i.sField = 1 := by
  constructor
  · intro h
    cases e with
    | tick | reset | read => cases h
    | write off b =>
      simp only [isCapture, Bool.and_eq_true, Bool.or_eq_true, beq_iff_eq] at h
      obtain ⟨hoff, hb⟩ := h
      obtain rfl : off = 0 := BitVec.eq_of_toNat_eq hoff
      obtain (rfl | rfl) | rfl := hb
      · exact ⟨.snapRaw, rfl, rfl⟩
      · exact ⟨.nowMs, rfl, rfl⟩
      · exact ⟨.nowUs, rfl, rfl⟩
  · rintro ⟨i, rfl, hS⟩
    cases i with
    | evalRaw | evalMs | evalUs => cases hS
    | snapRaw | nowMs | nowUs => rfl

/-- The write of a command's byte to CMD is the command. -/
theorem afterEvent_command (i : Instr) (s : State) : afterEvent (.write 0 (encode i)) s = afterCommand i s := by
  rw [afterEvent, afterWrite, if_pos rfl, afterByte, decode_encode]

/-- A capture takes the count into SNAP. -/
theorem afterEvent_snap_of_isCapture {e : Event} (h : isCapture e = true) (s : State) :
    (afterEvent e s).snap = s.cnt := by
  obtain ⟨i, rfl, hS⟩ := isCapture_iff.mp h
  rw [afterEvent_command, afterCommand_snap, if_pos hS]

/-- A capture does not count. -/
theorem afterEvent_cnt_of_isCapture {e : Event} (h : isCapture e = true) (s : State) :
    (afterEvent e s).cnt = s.cnt := by
  obtain ⟨i, rfl, -⟩ := isCapture_iff.mp h
  exact afterWrite_cnt _ _ s

/-- Two captures with no RESET between them differ by the TICKs between them, modulo `2^W`. -/
theorem captures_modEq {e₁ e₂ : Event} {gap : List Event} (h₁ : isCapture e₁ = true) (h₂ : isCapture e₂ = true)
    (hgap : ∀ e ∈ gap, e ≠ .reset) (s : State) :
    ((afterEvents (e₁ :: (gap ++ [e₂])) s).snap.toNat : Int) - (afterEvent e₁ s).snap.toNat
      ≡ tickCount gap [ZMOD 2 ^ s.cfg.width.bits] := by
  have hcount := afterEvents_cnt_modEq hgap (afterEvent e₁ s)
  rw [afterEvent_cfg, afterEvent_cnt_of_isCapture h₁] at hcount
  rw [afterEvents_cons, afterEvents_append, afterEvents_cons, afterEvents_nil, afterEvent_snap_of_isCapture h₂,
    afterEvent_snap_of_isCapture h₁]
  have hdiff := (Int.natCast_modEq_iff.mpr hcount).sub_right (s.cnt.toNat : Int)
  rwa [Nat.cast_add, add_sub_cancel_left, Nat.cast_pow, Nat.cast_ofNat] at hdiff

/-- Settles O24. -/
theorem snapshotsMeasureTicks : Obligations.SnapshotsMeasureTicks := by
  intro s e₁ e₂ gap rest hp h₁ h₂ hgap
  have hrun₁ := steps_of_pending [e₁] (gap ++ e₂ :: rest) s hp
  have hrun₂ := steps_of_pending (e₁ :: (gap ++ [e₂])) rest s (by rw [hp]; simp)
  rw [List.length_cons, List.length_append, List.length_singleton] at hrun₂
  have hdiff := (captures_modEq h₁ h₂ hgap s).eq
  have hexact : (tickCount gap : Int) % 2 ^ s.cfg.width.bits = tickCount gap ↔
      tickCount gap < 2 ^ s.cfg.width.bits := by
    exact_mod_cast Nat.mod_eq_iff_lt (two_pow_bits_pos s.cfg.width).ne'
  exact ⟨_, _, hrun₁, hrun₂, hdiff, hdiff ▸ hexact⟩

/-! ## Without a capture the count is hidden (R83)

The events of two machines that differ in the count only are compared one by one: no event but a capture lets the
count into any other field. -/

/-- The machine with another count. -/
def withCnt (c : Word) (s : State) : State := { s with cnt := c }

/-- A command with S = 0 does not look at the count. -/
theorem afterCommand_withCnt {i : Instr} (hS : i.sField ≠ 1) (c : Word) (s : State) :
    afterCommand i (withCnt c s) = withCnt c (afterCommand i s) := by
  cases i with
  | evalRaw | evalMs | evalUs => rfl
  | snapRaw | nowMs | nowUs => exact absurd rfl hS

/-- Nor does any other host write but a capture. -/
theorem afterWrite_withCnt {off : Offset} {b : Byte} (h : isCapture (.write off b) = false) (c : Word) (s : State) :
    afterWrite off b (withCnt c s) = withCnt c (afterWrite off b s) := by
  unfold afterWrite
  split
  next hoff =>
    subst hoff
    unfold afterByte
    cases hd : decode b with
    | error r => rfl
    | ok i =>
      have hS : i.sField ≠ 1 := by
        intro hS
        rw [isCapture_iff.mpr ⟨i, by rw [encode_of_decode_ok hd], hS⟩] at h
        cases h
      exact afterCommand_withCnt hS c s
  next =>
    split
    · unfold writeStatus; split <;> rfl
    · rfl

/-- An event that is no capture keeps two machines apart in the count at most; RESET even makes it the same. -/
theorem afterEvent_withCnt {e : Event} (h : isCapture e = false) (c : Word) (s : State) :
    ∃ c', afterEvent e (withCnt c s) = withCnt c' (afterEvent e s) := by
  cases e with
  | tick => exact ⟨narrow s.cfg.width (c.toNat + 1), rfl⟩
  | reset => exact ⟨0, rfl⟩
  | read off => exact ⟨c, rfl⟩
  | write off b => exact ⟨c, afterWrite_withCnt h c s⟩

theorem afterEvents_withCnt {es : List Event} (h : ∀ e ∈ es, isCapture e = false) (c : Word) (s : State) :
    ∃ c', afterEvents es (withCnt c s) = withCnt c' (afterEvents es s) := by
  induction es generalizing c s with
  | nil => exact ⟨c, rfl⟩
  | cons e es ih =>
    obtain ⟨he, hes⟩ := List.forall_mem_cons.mp h
    obtain ⟨c₁, hevent⟩ := afterEvent_withCnt he c s
    rw [afterEvents_cons, afterEvents_cons, hevent]
    exact ih hes c₁ (afterEvent e s)

/-- Settles O34. -/
theorem counterIsHiddenWithoutACapture : Obligations.CounterIsHiddenWithoutACapture := by
  intro s c es rest hp hnocapture
  obtain ⟨c', hrun⟩ := afterEvents_withCnt hnocapture c s
  have hother : steps es.length (withCnt c s) = .next (withPending rest (withCnt c' (afterEvents es s))) := by
    rw [steps_of_pending es rest (withCnt c s) hp, hrun]
  exact ⟨_, _, steps_of_pending es rest s hp, hother, rfl, rfl⟩

end Sys2Proof.Machine
end

section
/-! PROOFS of the scaler (41_scaler.md): `Eval` on the numbers it is given (R90-R96), the command write (R97, R104),
the six commands and their frames (R98-R103), and the read-back of a conversion (R105). -/

namespace Sys2Proof.Machine

/-! ## `Eval` as arithmetic on the descriptor's number (R90, R92) -/

/-- COEF is the low 16 bits of the descriptor's number (30_encoding.md R67). -/
theorem coef_eq_mod (F : Descriptor) : coef F = F.toNat % 2 ^ 16 := by
  rw [coef, coefField, BitVec.extractLsb'_toNat, Nat.shiftRight_zero]

/-- CORR is bits 31:16 of the descriptor's number in two's complement, whose sign is bit 31 (30_encoding.md R67). -/
theorem corr_eq_signed (F : Descriptor) :
    corr F = if F.toNat / 2 ^ 31 % 2 = 1 then ((F.toNat / 2 ^ 16 % 2 ^ 16 : Nat) : Int) - 2 ^ 16
      else ((F.toNat / 2 ^ 16 % 2 ^ 16 : Nat) : Int) := by
  have hfield : (corrField F).toNat = F.toNat / 2 ^ 16 % 2 ^ 16 := by
    rw [corrField, BitVec.extractLsb'_toNat, Nat.shiftRight_eq_div_pow]
  rw [corr, BitVec.toInt_eq_toNat_cond, hfield]
  split <;> split <;> omega

/-- Bit `k` of SHM is bit `32 + k` of the descriptor's number (30_encoding.md R66). -/
theorem hasShift_eq_testBit (F : Descriptor) {k : Nat} (hk : k < 32) : hasShift F k = F.toNat.testBit (32 + k) := by
  rw [hasShift, shmField, BitVec.getLsbD_extractLsb', decide_eq_true hk, Bool.true_and, BitVec.getLsbD]

/-- `Eval` as an integer: the exact sum, clamped from below, modulo `2^W`. -/
theorem toNat_eval_cast (w : Width) (F : Descriptor) (v : Word) :
    ((eval w F v).toNat : Int) = max 0 (evalSum F v.toNat) % 2 ^ w.bits := by
  rw [toNat_eval, Int.natCast_mod, coe_clampSum, Nat.cast_pow, Nat.cast_ofNat]

/-- Settles O46: each field of the descriptor is arithmetic on its number. -/
theorem evalIsTheFormula : Obligations.EvalIsTheFormula := by
  refine ⟨fun w F v => ?_, by decide, by decide⟩
  have hterms : (∑ k ∈ Finset.range 32, if hasShift F k then v.toNat / 2 ^ k else 0)
      = ∑ k ∈ Finset.range 32, if F.toNat.testBit (32 + k) then v.toNat / 2 ^ k else 0 :=
    Finset.sum_congr rfl fun k hk => by rw [hasShift_eq_testBit F (Finset.mem_range.mp hk)]
  rw [toNat_eval_cast, evalSum_eq_sum_range, hterms, coef_eq_mod, ← Nat.cast_add, ← corr_eq_signed]

/-! ## The clamp (R91) -/

@[simp] theorem clampSum_of_neg {a : Int} (h : a < 0) : clampSum a = 0 := if_pos h

/-- The clamp leaves a sum that is not negative. -/
@[simp] theorem clampSum_natCast (n : Nat) : clampSum (n : Int) = n := by
  rw [clampSum, if_neg (Int.not_lt.mpr n.cast_nonneg), Int.toNat_natCast]

theorem eval_eq_zero_of_neg (w : Width) {F : Descriptor} {v : Word} (h : evalSum F v.toNat < 0) :
    eval w F v = 0 := by
  rw [eval, clampSum_of_neg h, narrow, Nat.zero_mod]
  rfl

/-- The terms are natural numbers, so only the correction can make the sum negative. -/
theorem corr_lt_of_evalSum_neg {F : Descriptor} {v : Nat} (h : evalSum F v < 0) :
    corr F < 0 ∧ ((coef F * v + ((shifts F).map fun k => v / 2 ^ k).sum : Nat) : Int) < - corr F := by
  rw [evalSum_eq] at h
  omega

/-- Settles O47. -/
theorem negativeSumClampsToZero : Obligations.NegativeSumClampsToZero := by
  refine ⟨fun w F v h => ?_, by decide, by decide⟩
  exact ⟨eval_eq_zero_of_neg w h, corr_lt_of_evalSum_neg h⟩

/-! ## The order of the terms (R93) -/

/-- Settles O48: a sum over a list does not depend on its order. -/
theorem termOrderIsIrrelevant : Obligations.TermOrderIsIrrelevant := by
  intro F v ks hperm
  rw [evalSum_eq, (hperm.map _).sum_eq, Nat.cast_add]

/-! ## Monotonicity (R94) -/

/-- Every term grows with the value, and the correction does not depend on it. -/
theorem evalSum_mono (F : Descriptor) {v₁ v₂ : Nat} (h : v₁ ≤ v₂) : evalSum F v₁ ≤ evalSum F v₂ := by
  have hmul : coef F * v₁ ≤ coef F * v₂ := Nat.mul_le_mul_left _ h
  have hshift : ((shifts F).map fun k => v₁ / 2 ^ k).sum ≤ ((shifts F).map fun k => v₂ / 2 ^ k).sum :=
    List.sum_le_sum fun k _ => Nat.div_le_div_right h
  rw [evalSum_eq, evalSum_eq]
  omega

theorem clampSum_mono {a b : Int} (h : a ≤ b) : clampSum a ≤ clampSum b := by
  have hmax : max 0 a ≤ max 0 b := max_le_max_left 0 h
  rw [← coe_clampSum, ← coe_clampSum] at hmax
  exact Int.ofNat_le.mp hmax

/-- Settles O49: below `2^W` the truncation changes neither clamped sum. -/
theorem evalIsMonotoneBelowTheWrap : Obligations.EvalIsMonotoneBelowTheWrap := by
  intro w F v₁ v₂ hle
  have hclamp := clampSum_mono (evalSum_mono F hle)
  refine ⟨hclamp, fun hlt => ?_⟩
  rwa [toNat_eval, toNat_eval, Nat.mod_eq_of_lt hlt, Nat.mod_eq_of_lt (hclamp.trans_lt hlt)]

/-! ## Whole multiples (R95) -/

/-- With neither shifts nor a correction the sum is the multiply term alone. -/
theorem evalSum_coef_only (m : BitVec 16) (v : Nat) :
    evalSum ((0 : BitVec 32) ++ (0 : BitVec 16) ++ m) v = ((m.toNat * v : Nat) : Int) := by
  have hbit (k : Nat) : (0 : BitVec 32).getLsbD k = false := BitVec.getLsbD_zero
  have hcorr : (0 : BitVec 16).toInt = 0 := BitVec.toInt_zero
  simp only [evalSum_eq_sum_range, coef_append, corr_append, hasShift_append, hbit, hcorr, Bool.false_eq_true,
    if_false, Finset.sum_const_zero, Nat.cast_zero, add_zero]

theorem toNat_eval_coef_only (w : Width) (m : BitVec 16) (v : Word) :
    (eval w ((0 : BitVec 32) ++ (0 : BitVec 16) ++ m) v).toNat = m.toNat * v.toNat % 2 ^ w.bits := by
  rw [toNat_eval, evalSum_coef_only, clampSum_natCast]

/-- Settles O50. -/
theorem wholeMultipleIsExact : Obligations.WholeMultipleIsExact :=
  ⟨toNat_eval_coef_only, by decide⟩

/-! ## The under-report of the floors (R96) -/

/-- What flooring one shift term drops of the exact quotient. -/
def floorLoss (v k : Nat) : ℚ := (v : ℚ) * (1 / 2) ^ k - ((v / 2 ^ k : Nat) : ℚ)

/-- The floor of a term drops at least 0 and less than 1. -/
theorem floorLoss_nonneg_and_lt_one (v k : Nat) : 0 ≤ floorLoss v k ∧ floorLoss v k < 1 := by
  have hquot : (v : ℚ) * (1 / 2) ^ k = v / ((2 ^ k : Nat) : ℚ) := by
    rw [one_div_pow, mul_one_div, Nat.cast_pow, Nat.cast_ofNat]
  rw [floorLoss, hquot, ← Nat.floor_div_eq_div (K := ℚ)]
  constructor
  · exact sub_nonneg.mpr (Nat.floor_le (by positivity))
  · exact sub_lt_iff_lt_add'.mpr (Nat.lt_floor_add_one _)

/-- The exact terms and the floored ones of a shift list differ by the losses. -/
theorem sum_floorLoss (v : Nat) (ks : List Nat) :
    (ks.map (floorLoss v)).sum
      = (v : ℚ) * (ks.map fun k => (1 / 2 : ℚ) ^ k).sum - (((ks.map fun k => v / 2 ^ k).sum : Nat) : ℚ) := by
  induction ks with
  | nil => simp
  | cons k ks ih =>
    simp only [List.map_cons, List.sum_cons, ih, floorLoss]
    push_cast
    ring

/-- The under-report of a descriptor is the losses of its shift terms: the multiply term is exact. -/
theorem underReport_eq_sum_floorLoss (F : Descriptor) (v : Nat) :
    (v : ℚ) * ((coef F : ℚ) + ((shifts F).map fun k => (1 / 2 : ℚ) ^ k).sum) - ((evalSum F v - corr F : Int) : ℚ)
      = ((shifts F).map (floorLoss v)).sum := by
  rw [evalSum_eq, add_sub_cancel_right, sum_floorLoss, Int.cast_add, Int.cast_natCast, Int.cast_natCast, Nat.cast_mul]
  ring

/-- Settles O51: the losses of `n` terms are each at least 0 and below 1. -/
theorem floorTermsUnderReport : Obligations.FloorTermsUnderReport := by
  rintro F v e rfl
  rw [underReport_eq_sum_floorLoss]
  refine ⟨?_, fun hn => ?_, fun hn => ?_⟩
  · refine List.sum_nonneg fun x hx => ?_
    obtain ⟨k, -, rfl⟩ := List.mem_map.mp hx
    exact (floorLoss_nonneg_and_lt_one v k).left
  · have hlt := List.sum_lt_sum_of_ne_nil (List.ne_nil_of_length_pos (Nat.pos_of_ne_zero hn)) (floorLoss v)
      (fun _ => 1) fun k _ => (floorLoss_nonneg_and_lt_one v k).right
    rwa [List.map_const', List.sum_replicate, nsmul_one] at hlt
  · rw [List.eq_nil_of_length_eq_zero hn]
    rfl

/-! ## The command write (R97, R104) -/

/-- A reserved byte is one that no command encodes to. -/
theorem exists_decode_eq_error {b : Byte} (h : b.toNat / 8 ≠ 0 ∨ b.toNat % 4 = 3) : ∃ r, decode b = .error r := by
  cases hd : decode b with
  | error r => exact ⟨r, rfl⟩
  | ok i =>
    obtain ⟨hZ, hU⟩ := (legalBytesAreTheSix b).left.mp ⟨i, hd⟩
    omega

/-- Settles O37. -/
theorem reservedCommandOnlySetsErr : Obligations.ReservedCommandOnlySetsErr := by
  intro s b rest hp hreserved
  obtain ⟨r, hd⟩ := exists_decode_eq_error hreserved
  rw [step_of_pending_command hp, execCommand, hd]
  rfl

/-- What a command leaves, by its fields: S selects the value that is converted, U the conversion (R97). -/
theorem afterCommand_eq (i : Instr) (s : State) {v : Word} (hv : v = if i.sField.toNat = 1 then s.cnt else s.snap) :
    afterCommand i s =
      { s with
        snap := v
        result :=
          if i.uField.toNat = 0 then v
          else if i.uField.toNat = 1 then eval s.cfg.width s.cfg.fMs v
          else eval s.cfg.width s.cfg.fUs v } := by
  subst hv
  cases i <;> rfl

/-- Settles O36: the fields of a legal byte are those of its command. -/
theorem commandWriteFollowsThePseudocode : Obligations.CommandWriteFollowsThePseudocode := by
  intro s b rest hp
  refine ⟨reservedCommandOnlySetsErr s b rest hp, fun hZ hU v hv => ?_⟩
  obtain ⟨i, hd⟩ := (legalBytesAreTheSix b).left.mpr ⟨hZ, hU⟩
  obtain rfl := encode_of_decode_ok hd
  rw [toNat_encode_div, Nat.mod_eq_of_lt i.sField.isLt] at hv
  rw [stepRunsTheDecodedCommand s _ rest i hp hd, exec_eq, afterCommand_eq i (withPending rest s) hv, toNat_encode_mod]
  rfl

/-! ## The six commands (R98-R103) -/

/-- Settles O38. -/
theorem evalRawResult : Obligations.EvalRawResult := ⟨rfl, exec_eq .evalRaw⟩

/-- Settles O39. -/
theorem evalMsResult : Obligations.EvalMsResult := ⟨rfl, exec_eq .evalMs, by decide⟩

/-- Settles O40. -/
theorem evalUsResult : Obligations.EvalUsResult := ⟨rfl, exec_eq .evalUs, by decide⟩

/-- Settles O41. -/
theorem snapRawResult : Obligations.SnapRawResult := ⟨rfl, exec_eq .snapRaw⟩

/-- Settles O42. -/
theorem nowMsResult : Obligations.NowMsResult := ⟨rfl, exec_eq .nowMs, by decide, by decide, by decide⟩

/-- The example F_US multiplies by `2^11`, so `2^21` ticks add a multiple of `2^32` to the sum. -/
theorem eval_exampleFUs_add_period (v : Word) :
    eval .w32 Config.exampleFUs (v + 0x00200000) = eval .w32 Config.exampleFUs v := by
  have hF : Config.exampleFUs = (0 : BitVec 32) ++ (0 : BitVec 16) ++ (2048 : BitVec 16) := rfl
  have hadd : (v + 0x00200000).toNat = (v.toNat + 2 ^ 21) % 2 ^ 32 := BitVec.toNat_add v 0x00200000
  have hm : (2048 : BitVec 16).toNat = 2048 := rfl
  apply BitVec.eq_of_toNat_eq
  rw [hF, toNat_eval_coef_only, toNat_eval_coef_only, hadd, hm, Width.bits]
  omega

/-- Settles O43. -/
theorem nowUsResult : Obligations.NowUsResult := ⟨rfl, exec_eq .nowUs, by decide, eval_exampleFUs_add_period⟩

/-! ## The frames of the commands -/

/-- A byte outside both latches does not depend on them. -/
theorem readReg_congr_of_not_latch {s t : State} (hcfg : t.cfg = s.cfg) (herr : t.err = s.err) {off : Offset}
    (hoff : ¬ (4 ≤ off.toNat ∧ off.toNat ≤ 11)) : readReg t off = readReg s off := by
  have hrange := off.isLt
  unfold readReg statusByte
  rw [hcfg, herr]
  obtain hlo | hhi : off.toNat < 4 ∨ 12 ≤ off.toNat := by omega
  all_goals interval_cases off.toNat <;> rfl

/-- A byte outside RESULT does not depend on it. -/
theorem readReg_congr_of_not_result {s t : State} (hcfg : t.cfg = s.cfg) (herr : t.err = s.err)
    (hsnap : t.snap = s.snap) {off : Offset} (hoff : ¬ (4 ≤ off.toNat ∧ off.toNat ≤ 7)) :
    readReg t off = readReg s off := by
  by_cases hlatch : 4 ≤ off.toNat ∧ off.toNat ≤ 11
  · obtain ⟨hlo, hhi⟩ := hlatch
    obtain ⟨i, hi, rfl | rfl⟩ := exists_latch_offset hlo hhi
    · interval_cases i <;> exact absurd (by decide) hoff
    · rw [readReg_snap t hi, readReg_snap s hi, hsnap]
  · exact readReg_congr_of_not_latch hcfg herr hlatch

/-- Settles O44: the three commands have S = 0, so they leave SNAP too. -/
theorem evalCommandsFrame : Obligations.EvalCommandsFrame := by
  intro s t i hi h
  have hS : i.sField ≠ 1 := by revert hi; cases i <;> decide
  rw [exec_eq] at h
  obtain rfl := Host.Outcome.next.inj h
  obtain ⟨hcfg, hcnt, herr, hpending, hrdata⟩ := afterCommand_fields i s
  have hsnap : (afterCommand i s).snap = s.snap := by rw [afterCommand_snap, if_neg hS]
  exact ⟨hcfg, hcnt, hsnap, herr, hpending, hrdata, fun _ => readReg_congr_of_not_result hcfg herr hsnap⟩

/-- Settles O45: the three commands have S = 1. -/
theorem captureCommandsFrame : Obligations.CaptureCommandsFrame := by
  intro s t i hi h
  have hS : i.sField = 1 := by revert hi; cases i <;> decide
  rw [exec_eq] at h
  obtain rfl := Host.Outcome.next.inj h
  obtain ⟨hcfg, hcnt, herr, hpending, hrdata⟩ := afterCommand_fields i s
  have hsnap : (afterCommand i s).snap = s.cnt := by rw [afterCommand_snap, if_pos hS]
  exact ⟨hcfg, hcnt, hsnap, herr, hpending, hrdata, fun _ => readReg_congr_of_not_latch hcfg herr⟩

/-! ## The read-back of a conversion (R105)

The run is cut into the command and four segments, each a gap of quiet events and one byte read of RESULT. -/

/-- No event takes back a byte the host was answered. -/
theorem rdata_prefix_afterEvents (es : List Event) (s : State) : s.rdata <+: (afterEvents es s).rdata := by
  induction es generalizing s with
  | nil => exact List.prefix_rfl
  | cons e es ih =>
    have hone : s.rdata <+: (afterEvent e s).rdata := by
      cases e with
      | tick => exact List.prefix_rfl
      | reset => exact List.prefix_rfl
      | read off => exact List.prefix_append _ _
      | write off b => rw [afterEvent, afterWrite_rdata]
    exact hone.trans (ih _)

/-- Events append one answer for each read among them to those the host has. -/
theorem exists_answers (es : List Event) (s : State) :
    ∃ a : List Byte, (afterEvents es s).rdata = s.rdata ++ a ∧ a.length = readCount es := by
  obtain ⟨a, ha⟩ := rdata_prefix_afterEvents es s
  have hlength := afterEvents_rdata_length es s
  rw [← ha, List.length_append] at hlength
  exact ⟨a, ha.symm, Nat.add_left_cancel hlength⟩

/-- One segment of the read-back: through quiet events and the read of byte `i` of RESULT, the last answer is that
byte and RESULT stands. -/
theorem exists_answers_quiet_read {gap : List Event} (hquiet : ∀ e ∈ gap, isQuiet e = true) {i : Nat} (hi : i < 4)
    (s : State) :
    ∃ a : List Byte, a.length = readCount gap ∧
      (afterEvents (gap ++ [.read (BitVec.ofNat 4 (4 + i))]) s).rdata = s.rdata ++ a ++ [byteOf s.result i] ∧
      (afterEvents (gap ++ [.read (BitVec.ofNat 4 (4 + i))]) s).result = s.result := by
  obtain ⟨-, hresult⟩ := afterEvents_latches_of_isQuiet hquiet s
  obtain ⟨a, ha, hlength⟩ := exists_answers gap s
  refine ⟨a, hlength, ?_, ?_⟩ <;> rw [afterEvents_append, afterEvents_cons, afterEvents_nil, afterEvent]
  · rw [driveRead_rdata, ha, readReg_result _ hi, hresult]
  · rw [driveRead_result, hresult]

/-- The four byte reads of RESULT, each after a gap of other events. -/
def resultReads (g₀ g₁ g₂ g₃ : List Event) : List Event :=
  (g₀ ++ [.read 0x4]) ++ ((g₁ ++ [.read 0x5]) ++ ((g₂ ++ [.read 0x6]) ++ (g₃ ++ [.read 0x7])))

theorem length_resultReads (g₀ g₁ g₂ g₃ : List Event) :
    (resultReads g₀ g₁ g₂ g₃).length = g₀.length + g₁.length + g₂.length + g₃.length + 4 := by
  simp only [resultReads, List.length_append, List.length_singleton]
  omega

theorem resultReads_append (g₀ g₁ g₂ g₃ rest : List Event) :
    resultReads g₀ g₁ g₂ g₃ ++ rest
      = g₀ ++ .read 0x4 :: (g₁ ++ .read 0x5 :: (g₂ ++ .read 0x6 :: (g₃ ++ .read 0x7 :: rest))) := by
  simp only [resultReads, List.append_assoc, List.cons_append, List.nil_append]

/-- The four byte reads of RESULT with quiet events between them answer RESULT as it stands before them. -/
theorem exists_answers_readBack {g₀ g₁ g₂ g₃ : List Event} (hquiet : ∀ e ∈ g₀ ++ g₁ ++ g₂ ++ g₃, isQuiet e = true)
    (s : State) :
    ∃ a₀ a₁ a₂ a₃ : List Byte,
      (afterEvents (resultReads g₀ g₁ g₂ g₃) s).rdata
        = s.rdata ++ a₀ ++ [byteOf s.result 0] ++ a₁ ++ [byteOf s.result 1] ++ a₂ ++ [byteOf s.result 2]
          ++ a₃ ++ [byteOf s.result 3] ∧
      a₀.length = readCount g₀ ∧ a₁.length = readCount g₁ ∧ a₂.length = readCount g₂ ∧
      a₃.length = readCount g₃ := by
  simp only [List.forall_mem_append] at hquiet
  obtain ⟨⟨⟨hquiet₀, hquiet₁⟩, hquiet₂⟩, hquiet₃⟩ := hquiet
  obtain ⟨a₀, hlength₀, hrdata₀, hresult₀⟩ := exists_answers_quiet_read hquiet₀ (i := 0) (by decide) s
  obtain ⟨a₁, hlength₁, hrdata₁, hresult₁⟩ := exists_answers_quiet_read hquiet₁ (i := 1) (by decide) _
  obtain ⟨a₂, hlength₂, hrdata₂, hresult₂⟩ := exists_answers_quiet_read hquiet₂ (i := 2) (by decide) _
  obtain ⟨a₃, hlength₃, hrdata₃, -⟩ := exists_answers_quiet_read hquiet₃ (i := 3) (by decide) _
  refine ⟨a₀, a₁, a₂, a₃, ?_, hlength₀, hlength₁, hlength₂, hlength₃⟩
  rw [resultReads, afterEvents_append, afterEvents_append, afterEvents_append]
  rw [hresult₂, hresult₁, hresult₀, hrdata₂, hresult₁, hresult₀, hrdata₁, hresult₀, hrdata₀] at hrdata₃
  exact hrdata₃

/-- The result of the three capturing commands (R101-R103). -/
theorem afterEvent_capture_result {s : State} {b : Byte} {r : Word}
    (h : b = 0x05 ∧ r = eval s.cfg.width s.cfg.fMs s.cnt ∨ b = 0x06 ∧ r = eval s.cfg.width s.cfg.fUs s.cnt ∨
      b = 0x04 ∧ r = s.cnt) : (afterEvent (.write 0 b) s).result = r := by
  obtain ⟨rfl, rfl⟩ | ⟨rfl, rfl⟩ | ⟨rfl, rfl⟩ := h
  · exact congrArg State.result (afterEvent_command .nowMs s)
  · exact congrArg State.result (afterEvent_command .nowUs s)
  · exact congrArg State.result (afterEvent_command .snapRaw s)

/-- Settles O56: the command latches `r`, the four reads answer its bytes, and those assemble to it. -/
theorem conversionReadsBackExactly : Obligations.ConversionReadsBackExactly := by
  intro s b r g₀ g₁ g₂ g₃ rest hp hquiet hr
  rw [← resultReads_append] at hp
  have hrun := steps_of_pending (.write 0 b :: resultReads g₀ g₁ g₂ g₃) rest s hp
  rw [List.length_cons, length_resultReads] at hrun
  obtain ⟨a₀, a₁, a₂, a₃, hrdata, hlength₀, hlength₁, hlength₂, hlength₃⟩ :=
    exists_answers_readBack hquiet (afterEvent (.write 0 b) s)
  rw [afterEvent_capture_result hr, afterEvent, afterWrite_rdata] at hrdata
  exact ⟨withPending rest _, a₀, a₁, a₂, a₃, _, _, _, _, hrun, rfl, hrdata, hlength₀, hlength₁, hlength₂, hlength₃,
    assembleBytes_byteOf r⟩

end Sys2Proof.Machine
end

section
/-! PROOFS of the exceptions (60_exceptions.md): every run completes (R120), and what sets, keeps and clears
`STATUS.ERR` (R121-R123). -/

namespace Sys2Proof.Machine

/-! ## Completion (R120) -/

/-- A step never stops the machine: it answers the idle state or the state its event leaves. -/
theorem exists_step_eq_next (s : State) : ∃ t, step s = .next t := by
  cases hp : s.pending with
  | nil => exact ⟨s, step_of_pending_nil hp⟩
  | cons e rest => exact ⟨_, step_of_pending hp⟩

/-- The companion of `steps_succ_cases`: a run goes on from the state its first step answers. -/
theorem steps_succ_of_step {s u : State} (h : step s = .next u) (k : Nat) : steps (k + 1) s = steps k u := by
  simp only [steps, h]

/-- Settles O9, by induction on the length of the run. -/
theorem everyRunCompletes : Obligations.EveryRunCompletes := by
  intro s k
  induction k generalizing s with
  | zero => exact ⟨s, rfl⟩
  | succ k ih =>
    obtain ⟨u, hu⟩ := exists_step_eq_next s
    obtain ⟨t, ht⟩ := ih u
    exact ⟨t, by rw [steps_succ_of_step hu, ht]⟩

/-! ## The writers of ERR (R121, R123) -/

/-- The host clears ERR by a write to STATUS with bit 0 set (30_encoding.md R71). -/
theorem isErrClear_write (off : Offset) (b : Byte) :
    isErrClear (.write off b) = true ↔ off = 1 ∧ b.getLsbD 0 = true := by
  rw [isErrClear, Bool.and_eq_true, beq_iff_eq, ← BitVec.toNat_inj]
  rfl

/-- Who can write ERR: a RESET or a write that clears it, which leave it 0; a reserved command byte, which leaves
it 1; and every other event leaves it as it was. -/
theorem afterEvent_err_cases (e : Event) (s : State) :
    ((isErrClear e = true ∨ e = .reset) ∧ (afterEvent e s).err = false) ∨
    (∃ b r, e = .write 0 b ∧ decode b = .error r ∧ (afterEvent e s).err = true) ∨
    (¬ (isErrClear e = true ∨ e = .reset) ∧ (afterEvent e s).err = s.err) := by
  cases e with
  | tick => exact .inr (.inr ⟨nofun, rfl⟩)
  | reset => exact .inl ⟨.inr rfl, rfl⟩
  | read off => exact .inr (.inr ⟨nofun, rfl⟩)
  | write off b =>
    have hclear : (isErrClear (.write off b) = true ∨ Event.write off b = .reset) ↔ off = 1 ∧ b.getLsbD 0 = true := by
      rw [isErrClear_write, or_iff_left nofun]
    rw [hclear, afterEvent]
    obtain ⟨-, h₁, h⟩ | ⟨rfl, h⟩ | ⟨rfl, ⟨r, hd⟩, h⟩ | ⟨rfl, i, -, h⟩ := afterWrite_cases off b s <;> rw [h]
    · exact .inr (.inr ⟨fun hc => h₁ hc.1, rfl⟩)
    · rw [writeStatus_err]
      by_cases hbit : b.getLsbD 0 = true
      · exact .inl ⟨⟨rfl, hbit⟩, if_pos hbit⟩
      · exact .inr (.inr ⟨fun hc => hbit hc.2, if_neg hbit⟩)
    · exact .inr (.inl ⟨b, r, rfl, hd, rfl⟩)
    · obtain ⟨-, -, herr, -⟩ := afterCommand_fields i s
      exact .inr (.inr ⟨nofun, herr⟩)

/-- A byte that decodes to no command has a nonzero Z or U = 3. -/
theorem not_legal_of_decode_eq_error {b : Byte} {r : Reserved} (h : decode b = .error r) :
    ¬ (b.toNat / 8 = 0 ∧ b.toNat % 4 ≠ 3) := by
  intro hlegal
  obtain ⟨i, hi⟩ := (legalBytesAreTheSix b).left.mpr hlegal
  rw [h] at hi
  cases hi

/-- Settles O17: of the events that can write ERR, only a reserved command byte leaves it 1. -/
theorem onlyReservedCommandsSetErr : Obligations.OnlyReservedCommandsSetErr := by
  intro s t hstep hs ht
  obtain ⟨-, rfl⟩ | ⟨e, rest, hp, rfl⟩ := step_cases hstep
  · exact absurd (hs.symm.trans ht) Bool.false_ne_true
  · obtain ⟨-, herr⟩ | ⟨b, r, rfl, hd, -⟩ | ⟨-, herr⟩ := afterEvent_err_cases e (withPending rest s)
    · exact absurd (herr.symm.trans ht) Bool.false_ne_true
    · exact ⟨b, rest, hp, not_legal_of_decode_eq_error hd⟩
    · rw [withPending_err, hs] at herr
      exact absurd (herr.symm.trans ht) Bool.false_ne_true

/-! ## ERR is sticky (R122) -/

/-- A RESET or a clearing write leaves ERR 0. -/
theorem afterEvent_err_of_clear {e : Event} (h : isErrClear e = true ∨ e = .reset) (s : State) :
    (afterEvent e s).err = false := by
  obtain ⟨-, herr⟩ | ⟨b, r, rfl, -, -⟩ | ⟨hnot, -⟩ := afterEvent_err_cases e s
  · exact herr
  · obtain hc | hc := h <;> cases hc
  · exact absurd h hnot

/-- Every other event keeps a set ERR, a further reserved command among them. -/
theorem afterEvent_err_of_not_clear {e : Event} (h : ¬ (isErrClear e = true ∨ e = .reset)) {s : State}
    (hs : s.err = true) : (afterEvent e s).err = true := by
  obtain ⟨hc, -⟩ | ⟨b, r, -, -, herr⟩ | ⟨-, herr⟩ := afterEvent_err_cases e s
  · exact absurd hc h
  · exact herr
  · exact herr.trans hs

theorem afterEvents_err_of_not_clear {es : List Event} (h : ∀ e ∈ es, ¬ (isErrClear e = true ∨ e = .reset))
    {s : State} (hs : s.err = true) : (afterEvents es s).err = true := by
  induction es generalizing s with
  | nil => exact hs
  | cons e es ih =>
    obtain ⟨he, hes⟩ := List.forall_mem_cons.mp h
    exact ih hes (afterEvent_err_of_not_clear he hs)

/-- Settles O18: ERR outlives a run of events that do not clear it, and an event that clears it does so in one
step. -/
theorem errIsSticky : Obligations.ErrIsSticky := by
  refine ⟨fun s es rest hp hs hkeep => ?_, fun s e rest hp hclear => ?_⟩
  · have hnot : ∀ e ∈ es, ¬ (isErrClear e = true ∨ e = .reset) := fun e he =>
      not_or.mpr ⟨Bool.eq_false_iff.mp (hkeep e he).1, (hkeep e he).2⟩
    exact ⟨_, steps_of_pending es rest s hp, afterEvents_err_of_not_clear hnot hs, rfl⟩
  · have hstep := step_of_pending hp
    rw [afterEvent_withPending] at hstep
    exact ⟨_, hstep, afterEvent_err_of_clear hclear s, rfl⟩

end Sys2Proof.Machine
end

section
/-! PROOFS of reset and the hazards (70_reset_and_hazards.md): RESET, power-up and held reset (R140-R142), no result
latency (R145), snapshot reuse (R147), the wrap of results (R148), and the race of a TICK and a command (R150). -/

namespace Sys2Proof.Machine

/-! ## RESET, and power-up (R140, R141) -/

/-- Settles O20. -/
theorem resetStep : Obligations.ResetStep := fun _ _ hp => step_of_pending hp

/-- RESET leaves the block of the power-up state, whatever state it finds. -/
theorem sameBlock_reset_resetBlock (s : State) : SameBlock State.reset (resetBlock s) := ⟨rfl, rfl, rfl, rfl⟩

/-- Settles O21. -/
theorem powerUpIsTheResetState : Obligations.PowerUpIsTheResetState := by
  refine ⟨rfl, rfl, rfl, rfl, fun s t rest hp hstep => ?_⟩
  rw [step_of_pending hp] at hstep
  obtain rfl := Host.Outcome.next.inj hstep
  exact sameBlock_reset_resetBlock (withPending rest s)

/-! ## Held reset (R142)

Of a period of held reset only the reads count, and `afterEvents_reads` answers them all from the one state that
the RESET leaves. -/

/-- The offset a host read asks for. -/
def readOffset? : Event → Option Offset
  | .read off => some off
  | .tick => none
  | .reset => none
  | .write _ _ => none

/-- The reads among events are the reads of their offsets. -/
theorem filter_isRead (es : List Event) : es.filter isRead = (es.filterMap readOffset?).map .read := by
  induction es with
  | nil => rfl
  | cons e es ih =>
    cases e with
    | tick | reset | write => exact ih
    | read off => exact congrArg (Event.read off :: ·) ih

/-- A period of held reset leaves the reset block, and has answered its reads from it. -/
theorem afterEvents_heldReset (during : List Event) (s : State) :
    afterEvents (heldReset during) s =
      { resetBlock s with
        rdata := s.rdata ++ (during.filterMap readOffset?).map (readReg (resetBlock s)) } := by
  rw [heldReset, filter_isRead, afterEvents_cons, afterEvent, afterEvents_reads, resetBlock_rdata]

/-- Settles O26: both forms end in the reset block, the hardware's by `afterEvents_heldReset` and the model's because
its last event is the RESET. -/
theorem heldResetLeavesTheResetState : Obligations.HeldResetLeavesTheResetState := by
  rintro s _ during rest hp rfl
  have hheld := steps_of_pending (heldReset during) rest s hp
  have hbefore := steps_of_pending (during ++ [Event.reset]) rest (withPending (during ++ .reset :: rest) s)
    (List.append_cons during .reset rest)
  rw [List.length_append, List.length_singleton, afterEvents_append] at hbefore
  rw [afterEvents_heldReset] at hheld
  refine ⟨_, _, hheld, hbefore, ⟨rfl, rfl, rfl, rfl⟩, sameBlock_reset_resetBlock s, rfl, rfl, ?_⟩
  refine congrArg (s.rdata ++ ·) (List.map_filterMap.trans (List.filterMap_congr fun e _ => ?_))
  cases e <;> rfl

/-! ## No result latency (R145) -/

/-- Any byte written to CMD, legal or reserved, is executed. -/
theorem afterEvent_write_cmd (b : Byte) (s : State) : afterEvent (.write 0 b) s = afterByte b s := by
  rw [afterEvent, afterWrite, if_pos rfl]

/-- Settles O35: the read is answered from the state the command left, and answers are all it adds. -/
theorem noResultLatency : Obligations.NoResultLatency := by
  intro s b off rest hp
  have hrun := steps_of_pending [.write 0 b, .read off] rest s hp
  have hcommand : execCommand b (withPending (.read off :: rest) s)
      = .next (withPending (.read off :: rest) (afterEvent (.write 0 b) s)) := by
    rw [execCommand_eq, ← afterEvent_write_cmd, afterEvent_withPending]
  have hanswers : (afterEvent (.write 0 b) s).rdata = s.rdata := afterWrite_rdata 0 b s
  refine ⟨_, _, hcommand, hrun, ?_, ⟨rfl, rfl, rfl, rfl⟩, rfl⟩
  rw [withPending_rdata, afterEvents_cons, afterEvents_cons, afterEvents_nil, afterEvent, driveRead_rdata, hanswers]
  rfl

/-! ## Snapshot reuse (R147) -/

/-- After a capture and quiet events, EVAL.MS converts the count at the capture, and leaves it in SNAP. -/
theorem afterEvents_capture_evalMs {e : Event} (he : isCapture e = true) {gap : List Event}
    (hquiet : ∀ e ∈ gap, isQuiet e = true) (s : State) :
    (afterEvents (e :: (gap ++ [.write 0 0x01])) s).result = eval s.cfg.width s.cfg.fMs s.cnt ∧
    (afterEvents (e :: (gap ++ [.write 0 0x01])) s).snap = s.cnt := by
  have heval (u : State) : afterEvent (.write 0 0x01) u = convertBy u.cfg.fMs u := afterEvent_command .evalMs u
  obtain ⟨hsnap, -⟩ := afterEvents_latches_of_isQuiet hquiet (afterEvent e s)
  rw [afterEvent_snap_of_isCapture he] at hsnap
  rw [afterEvents_cons, afterEvents_append, afterEvents_cons, afterEvents_nil, heval, convertBy_result,
    convertBy_snap, hsnap, afterEvents_cfg, afterEvent_cfg]
  exact ⟨rfl, rfl⟩

/-- Settles O57: NOW.US is a capture, and so is the command of R147's hazard, with no gap after it. -/
theorem oneSnapshotTwoUnits : Obligations.OneSnapshotTwoUnits := by
  refine ⟨fun s gap rest hp hquiet => ?_, fun s e rest hp he => ?_⟩
  · have hnow := steps_of_pending [.write 0 0x06] (gap ++ .write 0 0x01 :: rest) s hp
    have hboth := steps_of_pending (.write 0 0x06 :: (gap ++ [.write 0 0x01])) rest s
      (hp.trans (congrArg _ (List.append_cons gap (.write 0 0x01) rest)))
    rw [List.length_cons, List.length_append, List.length_singleton] at hboth
    obtain ⟨hresult, hsnap⟩ := afterEvents_capture_evalMs (e := .write 0 0x06) rfl hquiet s
    exact ⟨_, _, hnow, hboth, rfl, afterEvent_capture_result (.inr (.inl ⟨rfl, rfl⟩)), hresult, hsnap⟩
  · have hrun := steps_of_pending [e, .write 0 0x01] rest s hp
    obtain ⟨hresult, -⟩ := afterEvents_capture_evalMs he (List.forall_mem_nil _) s
    exact ⟨_, hrun, rfl, hresult⟩

/-! ## The wrap of results (R148) -/

/-- The difference of two residues, as a residue, is the difference of the numbers exactly when that is below the
modulus. -/
theorem mod_sub_mod_emod_eq_sub_iff {a b M : Nat} (hM : 0 < M) (h : a ≤ b) :
    (((b % M : Nat) : Int) - ((a % M : Nat) : Int)) % M = (b : Int) - a ↔ (b : Int) - a < M := by
  have hnonneg : (0 : Int) ≤ (b : Int) - a := by omega
  rw [Int.natCast_mod, Int.natCast_mod, ← Int.sub_emod]
  constructor
  · exact fun heq => heq ▸ Int.emod_lt_of_pos _ (Int.natCast_pos.mpr hM)
  · exact fun hlt => Int.emod_eq_of_lt hnonneg hlt

/-- Settles O59: the clamped sums are in the order of the counts. -/
theorem resultWrapHazard : Obligations.ResultWrapHazard := by
  refine ⟨fun w F v₁ v₂ hle => ?_, by decide, by decide, by decide⟩
  have hiff := mod_sub_mod_emod_eq_sub_iff (two_pow_bits_pos w) (clampSum_mono (evalSum_mono F hle))
  rw [Nat.cast_pow, Nat.cast_ofNat] at hiff
  rw [toNat_eval, toNat_eval]
  exact hiff

/-! ## The race of a TICK and a command (R150) -/

theorem mem_simultaneousOrders {a b : Event} {es : List Event} :
    es ∈ simultaneousOrders a b ↔ es = [a, b] ∨ es = [b, a] := by
  rw [simultaneousOrders, List.mem_pair]

/-- Settles O58: the capture takes the count as the events before it left it, and does not count itself. -/
theorem tickCommandRace : Obligations.TickCommandRace := by
  rintro s e rest es _ he rfl hes
  have hne : e ≠ .tick := by rintro rfl; cases he
  have hrun := steps_of_pending es rest (withPending (es ++ rest) s) rfl
  rw [afterEvents_withPending, withPending_withPending] at hrun
  obtain rfl | rfl := mem_simultaneousOrders.mp hes
  · exact ⟨_, hrun, rfl, afterEvent_cnt_of_isCapture he (tickCounter s),
      fun _ => afterEvent_snap_of_isCapture he (tickCounter s),
      fun heq => absurd (List.head_eq_of_cons_eq heq).symm hne⟩
  · refine ⟨_, hrun, rfl, ?_, fun heq => absurd (List.head_eq_of_cons_eq heq) hne,
      fun _ => afterEvent_snap_of_isCapture he s⟩
    have hcnt : (tickCounter (afterEvent e s)).cnt = narrow s.cfg.width (s.cnt.toNat + 1) := by
      rw [tickCounter_cnt, afterEvent_cfg, afterEvent_cnt_of_isCapture he]
    exact hcnt

end Sys2Proof.Machine
end
